-- ==== Sys2Proof/Word.lean ====
section
/-! DEFINITION. Sys2Proof/Word.lean: the one word of the block, a 32-bit pattern (00_scope.md R11). -/

namespace Sys2Proof

/-- `u32` of R11: an unsigned 32-bit pattern. Addition and subtraction are modulo 2^32, `<` is
unsigned, bit 0 is the least significant (R10). A float32 value is only ever such a pattern (R12, R22). -/
abbrev Word := BitVec 32

end Sys2Proof
end

