-- ==== Sys2Proof/Config.lean ====
section
/-! DEFINITION. Sys2Proof/Config.lean: the implementation parameters that 00_scope.md R9 fixes.
The open ones: MAX_ARRAY_LEN is `Machine.State.maxArrayLen` (log 5); LATENCY and BYTE_ORDER are read by
no rule and have no place in the model (logs 12, 13). The spec has no free value, so this file has no
opaque constant. -/

namespace Sys2Proof.Config

/-- FLOAT_W (R9). -/
def floatW : Nat := 32
/-- EXP_W (R9). -/
def expW : Nat := 8
/-- MANT_W (R9). -/
def mantW : Nat := 23
/-- BITS_W (R9, decision D2). -/
def bitsW : Nat := 32
/-- The largest legal `bits` (R9, R24). The smallest is 0. -/
abbrev maxBits : Int := 23

end Sys2Proof.Config
end

