-- ==== Sys2Proof/Syntax.lean ====
section
/-! DEFINITION. Sys2Proof/Syntax.lean: the request format REQ and the four operations. -/

namespace Sys2Proof

/-- One request as it crosses the interface, format REQ (30_encoding.md R38, 10_state.md R18). All four
fields are always there; an operation ignores the one it does not use (R43). -/
structure Request where
  /-- `ctrl[1]` = A (array), `ctrl[0]` = R (round). -/
  ctrl : BitVec 2
  /-- The float32 pattern of TRUNC.R and TRUNC.Z. -/
  value : Word
  /-- The sequence of float32 patterns of TRUNCA.R and TRUNCA.Z. -/
  data : List Word
  /-- Two's complement count of mantissa bits to discard. -/
  bits : Word
  deriving DecidableEq, Repr

/-- The operations, one constructor per row of spec/opcode_table.json, with the operands each reads. -/
inductive Instr where
  /-- TRUNC.Z, ctrl 00 (40_truncate.md R66). -/
  | truncZ (value bits : Word)
  /-- TRUNC.R, ctrl 01 (40_truncate.md R65). -/
  | truncR (value bits : Word)
  /-- TRUNCA.Z, ctrl 10 (41_truncate_array.md R73). -/
  | truncaZ (data : List Word) (bits : Word)
  /-- TRUNCA.R, ctrl 11 (41_truncate_array.md R74). -/
  | truncaR (data : List Word) (bits : Word)
  deriving DecidableEq, Repr

/-- The `bits` operand, which every operation has. -/
def Instr.bits : Instr → Word
  | .truncZ _ bits => bits
  | .truncR _ bits => bits
  | .truncaZ _ bits => bits
  | .truncaR _ bits => bits

/-- The `data` operand; a scalar operation has none and reads as the empty sequence. -/
def Instr.data : Instr → List Word
  | .truncZ _ _ => []
  | .truncR _ _ => []
  | .truncaZ data _ => data
  | .truncaR data _ => data

end Sys2Proof
end

