-- ==== Sys2Proof/Machine/State.lean ====
section
/-! DEFINITION. Sys2Proof/Machine/State.lean: the interface of the block as plain data. The block has no
register, flag, mode or memory (10_state.md R15 to R21, 20_memory.md R29); what exists is a request's
operands and its response (R15), so State holds the requests presented, the responses delivered, the
reset input and the one parameter a rule reads. -/

namespace Sys2Proof.Machine

/-- The one failure of the block (60_exceptions.md R76). It carries nothing: no address, no offending
value, no index (R77). -/
inductive InvalidArgument where
  | invalidArgument
  deriving DecidableEq, Repr

/-- The result part of an OK response (10_state.md R18). -/
inductive Result where
  /-- `result`, of TRUNC.R and TRUNC.Z. -/
  | word (result : Word)
  /-- `result_data`, of TRUNCA.R and TRUNCA.Z. -/
  | words (resultData : List Word)
  deriving DecidableEq, Repr

/-- A response: either the error or the value, never both (60_exceptions.md R77). -/
abbrev Response := Except InvalidArgument Result

/-- One answered request: the operation with its operands, and its own response (R77, R80). -/
structure Transaction where
  request : Instr
  response : Response
  deriving DecidableEq, Repr

/-- Why the machine stops with a fault: never. The spec gives the block no trap, no fault and no error
beside the InvalidArgument response, after which the block goes on (60_exceptions.md R78, R80), so this
type has no constructor. -/
inductive Fault where
  deriving DecidableEq, Repr

/-- Why the model gives a request no meaning. -/
inductive Refusal where
  /-- Raised by an arm of `exec` for an instruction without a meaning. No arm does. Safe: the run stops. -/
  | notModelled (mnemonic : String)
  /-- Raised by TRUNCA.R and TRUNCA.Z with legal `bits` when MAX_ARRAY_LEN is finite and `data` is
  longer: an implementation with a bound "refuses longer requests" (decision D5), and R18 says no such
  request can be presented. Safe: the run stops (log 6). -/
  | arrayTooLong (n : Nat)
  deriving DecidableEq, Repr

/-- Everything the block and its interface hold between two operations. -/
structure State where
  /-- Requests presented and not yet answered, in the order the block works them (R13, R18, R87, log 1). -/
  pending : List Request
  /-- The reset input; the next step takes it (R87, log 3). -/
  resetAsserted : Bool
  /-- The open parameter MAX_ARRAY_LEN (R9, decision D5, log 5); `none` is unbounded. No step writes it. -/
  maxArrayLen : Option Nat
  /-- The responses delivered, oldest first, each with its request (R18, R92, log 2). No operation reads
  them (R15). -/
  served : List Transaction
  deriving DecidableEq, Repr

/-- The block right after reset: nothing to set (70_reset_and_hazards.md R86), no request, no response.
The values are the model's own fields' (logs 1, 2, 3, 5). -/
def State.reset : State :=
  { pending := [], resetAsserted := false, maxArrayLen := none, served := [] }

end Sys2Proof.Machine
end

