-- ==== Sys2Proof/Machine/Operands.lean ====
section
/-! DEFINITION. Sys2Proof/Machine/Operands.lean: the operand forms (10_state.md sections 2 and 3,
30_encoding.md section 2): the `bits` integer, the derived masks, the fields of a float32 pattern and
the informative reading of its value. -/

namespace Sys2Proof.Machine

/-- `sext_32` (00_scope.md R11): the two's complement reading of `bits` (R24, R40). -/
def sext32 (v : Word) : Int := v.toInt

/-- The range of legal `bits` values is [0, 23] (R24). -/
def bitsInRange (b : Int) : Bool := decide (0 ≤ b) && decide (b ≤ Config.maxBits)

/-- Bits n-1..0 set (R26). -/
def dropMask (n : Nat) : Word := (1#32 <<< n) - 1#32

/-- Bits 31..n set (R26). -/
def keepMask (n : Nat) : Word := ~~~(dropMask n)

/-- The midpoint of the dropped range (R26); used for 1 <= n only. -/
def roundThreshold (n : Nat) : Word := 1#32 <<< (n - 1)

/-- One unit in the lowest kept bit (R26). -/
def increment (n : Nat) : Word := 1#32 <<< n

/-- The mantissa field, bits 22:0 (R22). -/
def mantissa (v : Word) : BitVec 23 := v.extractLsb' 0 23

/-- The exponent field, bits 30:23 (R22; PRESUMED with the spec's general knowledge G1, log 10). -/
def exponent (v : Word) : BitVec 8 := v.extractLsb' 23 8

/-- The sign bit, bit 31 (R22; PRESUMED with the spec's general knowledge G1, log 10). -/
def signBit (v : Word) : Bool := v.getLsbD 31

/-- The classes of float32 patterns (R23). -/
inductive FloatClass where
  | infinity
  | nan
  | normal
  | subnormal
  | zero
  deriving DecidableEq, Repr

/-- The class of a pattern (R23; PRESUMED with the spec's general knowledge G2, log 10). Informative:
no operation reads it (R59). -/
def classify (v : Word) : FloatClass :=
  if exponent v = 255#8 then
    if mantissa v = 0#23 then .infinity else .nan
  else if exponent v = 0#8 then
    if mantissa v = 0#23 then .zero else .subnormal
  else .normal

/-- The magnitude of a finite pattern as a whole number of units of 2^-149 (R23; PRESUMED, log 10):
m for a subnormal or zero, (2^23 + m) * 2^(e-1) for a normal. Informative, for the bounds of R60. -/
def magnitude (v : Word) : Nat :=
  if exponent v = 0#8 then (mantissa v).toNat
  else (2 ^ 23 + (mantissa v).toNat) * 2 ^ ((exponent v).toNat - 1)

end Sys2Proof.Machine
end

