-- ==== Sys2Proof/WellFormed.lean ====
section
/-! DEFINITION. Sys2Proof/WellFormed.lean: which requests can be presented. Every `value` pattern and
every `bits` pattern is legal to present (10_state.md R24, 70_reset_and_hazards.md R89); the one limit is
0 <= n <= MAX_ARRAY_LEN for the length of `data` (R18). -/

namespace Sys2Proof

/-- Does a sequence of `n` elements respect MAX_ARRAY_LEN? `none` is the "unbounded" that R9 allows. -/
def lengthAllowed (maxArrayLen : Option Nat) (n : Nat) : Bool :=
  match maxArrayLen with
  | none => true
  | some m => decide (n ≤ m)

/-- The instruction can be presented to a block whose MAX_ARRAY_LEN is `maxArrayLen`. -/
def Instr.wellFormed (maxArrayLen : Option Nat) (i : Instr) : Bool :=
  lengthAllowed maxArrayLen i.data.length

end Sys2Proof
end

