-- ==== Sys2Proof/Decode.lean ====
section
/-! DEFINITION. Sys2Proof/Decode.lean: from a request to the operation it selects, and back
(30_encoding.md). Decode is total and refuses nothing: the control field has no reserved value (R42).
The block itself moves whole fields and has no bytes (20_memory.md R31), so the packing of a request
into ONE number, which the host's opcode-table words need, is the model's (log 8, DESIGN CHOICE): in the
field order of R47, `ctrl` in bits 1:0, `bits` in bits 33:2, then `value` in bits 65:34, or the elements
of `data` from bit 34 on, 32 bits each, element 0 lowest. -/

namespace Sys2Proof

/-- A, the array selection: `ctrl[1]` (R40). -/
def Request.isArray (q : Request) : Bool := q.ctrl.getLsbD 1

/-- R, the round flag: `ctrl[0]` (R40, R25). -/
def Request.isRound (q : Request) : Bool := q.ctrl.getLsbD 0

/-- The opcode map (R41). The field an operation does not use is dropped here, so it cannot reach the
response (R43). -/
def decode (q : Request) : Instr :=
  match q.isArray, q.isRound with
  | false, false => .truncZ q.value q.bits
  | false, true => .truncR q.value q.bits
  | true, false => .truncaZ q.data q.bits
  | true, true => .truncaR q.data q.bits

/-- The request of an instruction (R41). An unused field is written as zero or empty; R43 lets it hold
anything. -/
def encode : Instr → Request
  | .truncZ value bits => { ctrl := 0b00#2, value := value, data := [], bits := bits }
  | .truncR value bits => { ctrl := 0b01#2, value := value, data := [], bits := bits }
  | .truncaZ data bits => { ctrl := 0b10#2, value := 0#32, data := data, bits := bits }
  | .truncaR data bits => { ctrl := 0b11#2, value := 0#32, data := data, bits := bits }

/-- The elements as one number, element 0 in the lowest 32 bits (log 8). -/
def packWords : List Word → Nat
  | [] => 0
  | w :: ws => w.toNat + 2 ^ 32 * packWords ws

/-- The first `n` elements of a packed sequence (log 8). -/
def unpackWords : Nat → Nat → List Word
  | 0, _ => []
  | n + 1, w => BitVec.ofNat 32 w :: unpackWords n (w / 2 ^ 32)

/-- The request whose packed form is the low `nbits` bits of `w` (log 8). The number of elements is the
number of whole 32-bit fields above bit 33. -/
def Request.unpack (nbits w : Nat) : Request :=
  let low := w % 2 ^ nbits
  let ctrl := BitVec.ofNat 2 low
  { ctrl := ctrl
    bits := BitVec.ofNat 32 (low / 2 ^ 2)
    value := if ctrl.getLsbD 1 then 0#32 else BitVec.ofNat 32 (low / 2 ^ 34)
    data := if ctrl.getLsbD 1 then unpackWords ((nbits - 34) / 32) (low / 2 ^ 34) else [] }

/-- The packed form of a request (log 8). -/
def Request.pack (q : Request) : Nat :=
  q.ctrl.toNat + 2 ^ 2 * q.bits.toNat
    + 2 ^ 34 * (if q.isArray then packWords q.data else q.value.toNat)

/-- How many bits the packed form of a request has (log 8). -/
def Request.packedBits (q : Request) : Nat :=
  34 + 32 * (if q.isArray then q.data.length else 1)

/-- The packed word of an instruction. -/
def encodeWord (i : Instr) : Nat := (encode i).pack

/-- The number of bits of an instruction's packed word. -/
def encodedBits (i : Instr) : Nat := (encode i).packedBits

/-- What the decoder reads from a packed request of `nbits` bits. Never `none`: decode is total (R42). -/
def decodeTableWord (nbits w : Nat) : Option Instr :=
  some (decode (Request.unpack nbits w))

end Sys2Proof
end

