-- ==== Sys2Proof/Machine/Ops.lean ====
section
/-! DEFINITION. Sys2Proof/Machine/Ops.lean: the named operations over the interface: presenting and
taking a request, delivering a response, the InvalidArgument response, reset. The block has no trap and
no return from one (60_exceptions.md R80): answering INVALID_ARGUMENT is the only thing an error does. -/

namespace Sys2Proof.Machine

/-- The requester presents a request (R13, R89); it is worked after those already presented (log 1). -/
def State.present (s : State) (q : Request) : State :=
  { s with pending := s.pending ++ [q] }

/-- Reset is asserted from outside (R87); the next step takes it (log 3). -/
def State.assertReset (s : State) : State :=
  { s with resetAsserted := true }

/-- The next request to work and the state without it, if one is presented. -/
def State.takeRequest (s : State) : Option (Request × State) :=
  match s.pending with
  | [] => none
  | q :: rest => some (q, { s with pending := rest })

/-- The state with `q` as the next request to work, and no reset in the way. -/
def State.presentNext (s : State) (q : Request) : State :=
  { s with pending := q :: s.pending, resetAsserted := false }

/-- Reset: every request in flight is dropped without a response, and nothing else changes
(R86, R87, decision D19). The input is taken (log 3). -/
def State.takeReset (s : State) : State :=
  { s with pending := [], resetAsserted := false }

/-- The one response of a request is delivered, whole (R77, R92). Nothing else changes (R15). -/
def State.deliver (s : State) (i : Instr) (r : Response) : State :=
  { s with served := s.served ++ [{ request := i, response := r }] }

/-- The error: status INVALID_ARGUMENT and no result. No state is saved, no mode changes, no handler is
entered, and the block takes the next request as if none had failed (R76, R77, R80). -/
def State.deliverInvalidArgument (s : State) (i : Instr) : State :=
  s.deliver i (.error .invalidArgument)

/-- The responses delivered, oldest first: what the requesters observe (95_test_vectors.md section 7). -/
def State.responses (s : State) : List Response :=
  s.served.map Transaction.response

end Sys2Proof.Machine
end

