-- ==== Sys2Proof/Machine/Truncate.lean ====
section
/-! DEFINITION. Sys2Proof/Machine/Truncate.lean: scalar truncation, TRUNC.Z and TRUNC.R
(40_truncate.md). Where the source's prose differs, the formulas of R48 govern (90_conflicts.md C1 to C8). -/

namespace Sys2Proof.Machine

/-- `truncated = intVal & keepMask` (R48, R51). -/
def masked (v : Word) (n : Nat) : Word := v &&& keepMask n

/-- `dropped = intVal & dropMask` (R48). -/
def dropped (v : Word) (n : Nat) : Word := v &&& dropMask n

/-- The guard `truncated < keepMask`, an unsigned compare (R52). -/
def roundGuard (v : Word) (n : Nat) : Bool := decide (masked v n < keepMask n)

/-- The round-up is taken: the guard holds and `dropped > roundThreshold`, strictly (R48, R54). -/
def roundsUp (v : Word) (n : Nat) : Bool :=
  roundGuard v n && decide (roundThreshold n < dropped v n)

/-- `truncate_core` once `b` is known to be in [0, 23] (R48): identity at 0 (R50), masking (R51),
rounding only when `round` (R49). -/
def truncateLegal (v : Word) (n : Nat) (round : Bool) : Word :=
  if n = 0 then v
  else if round && roundsUp v n then masked v n + increment n
  else masked v n

/-- `truncate_core` (R48). The range check comes first and looks at `b` alone (R49, R76). -/
def truncateCore (v : Word) (b : Int) (round : Bool) : Except InvalidArgument Word :=
  if bitsInRange b then .ok (truncateLegal v b.toNat round) else .error .invalidArgument

/-- The work TRUNC.R and TRUNC.Z share: answer with `truncate_core` of the operands (R65, R66). -/
def answerScalar (i : Instr) (value bits : Word) (round : Bool) (s : State) :
    Host.Outcome State Fault Refusal :=
  match truncateCore value (sext32 bits) round with
  | .ok w => .next (s.deliver i (.ok (.word w)))
  | .error .invalidArgument => .next (s.deliverInvalidArgument i)

/-- TRUNC.Z (R66). -/
def execTruncZ (value bits : Word) (s : State) : Host.Outcome State Fault Refusal :=
  answerScalar (.truncZ value bits) value bits false s

/-- TRUNC.R (R65). -/
def execTruncR (value bits : Word) (s : State) : Host.Outcome State Fault Refusal :=
  answerScalar (.truncR value bits) value bits true s

end Sys2Proof.Machine
end

