-- ==== Sys2Proof/Machine/TruncateArray.lean ====
section
/-! DEFINITION. Sys2Proof/Machine/TruncateArray.lean: array truncation, TRUNCA.Z and TRUNCA.R
(41_truncate_array.md). -/

namespace Sys2Proof.Machine

/-- `truncate_array_core` (R68): one range check for the whole request, before any element, so an
empty array with bad `bits` fails too (R70, decision D13); then every element by `truncate_core`. -/
def truncateArrayCore (data : List Word) (b : Int) (round : Bool) :
    Except InvalidArgument (List Word) :=
  if bitsInRange b then .ok (data.map fun v => truncateLegal v b.toNat round)
  else .error .invalidArgument

/-- The in-place form an implementation may use (R72): the places in `order` are worked one after
another, each read before it is written. The response is that of `truncateArrayCore` for any order that
works every place once (R71); the machine's step uses the copying form. -/
def truncateInPlace (order : List Nat) (data : List Word) (n : Nat) (round : Bool) : List Word :=
  order.foldl (fun arr k => arr.modify k fun v => truncateLegal v n round) data

/-- The work TRUNCA.R and TRUNCA.Z share (R73, R74). The range check comes before any other step (R76);
then a sequence longer than a finite MAX_ARRAY_LEN is refused (decision D5, logs 6 and 7). -/
def answerArray (i : Instr) (data : List Word) (bits : Word) (round : Bool) (s : State) :
    Host.Outcome State Fault Refusal :=
  match truncateArrayCore data (sext32 bits) round with
  | .error .invalidArgument => .next (s.deliverInvalidArgument i)
  | .ok ws =>
    if lengthAllowed s.maxArrayLen data.length then .next (s.deliver i (.ok (.words ws)))
    else .refused (.arrayTooLong data.length)

/-- TRUNCA.Z (R73). -/
def execTruncaZ (data : List Word) (bits : Word) (s : State) : Host.Outcome State Fault Refusal :=
  answerArray (.truncaZ data bits) data bits false s

/-- TRUNCA.R (R74). -/
def execTruncaR (data : List Word) (bits : Word) (s : State) : Host.Outcome State Fault Refusal :=
  answerArray (.truncaR data bits) data bits true s

end Sys2Proof.Machine
end

