-- ==== Sys2Proof/Machine/Dispatch.lean ====
section
/-! DEFINITION. Sys2Proof/Machine/Dispatch.lean: one arm per operation, each a call of its meaning. -/

namespace Sys2Proof.Machine

/-- The operation a request selected, run on the block (60_exceptions.md R84). -/
def exec (i : Instr) (s : State) : Host.Outcome State Fault Refusal :=
  match i with
  | .truncZ value bits => Sys2Proof.Machine.execTruncZ value bits s
  | .truncR value bits => Sys2Proof.Machine.execTruncR value bits s
  | .truncaZ data bits => Sys2Proof.Machine.execTruncaZ data bits s
  | .truncaR data bits => Sys2Proof.Machine.execTruncaR data bits s

end Sys2Proof.Machine
end

