-- ==== Sys2Proof/Machine/Step.lean ====
section
/-! DEFINITION. Sys2Proof/Machine/Step.lean: one step of the block, which is one complete operation
(00_scope.md R13). -/

namespace Sys2Proof.Machine

/-- Reset first, if it is asserted (R87). Otherwise the next presented request is taken, decoded and
worked to its response (R13, R92). With nothing presented the block waits (log 4). -/
def step (s : State) : Host.Outcome State Fault Refusal :=
  if s.resetAsserted then .next s.takeReset
  else
    match s.takeRequest with
    | none => .next s
    | some (q, s') => exec (decode q) s'

/-- `s` with the request packed in `w` as the next one to work, so that the next step runs it (logs 8, 9). -/
def State.withFetchWord (s : State) (nbits w : Nat) : State :=
  s.presentNext (Request.unpack nbits w)

end Sys2Proof.Machine
end

