-- ==== Sys2Proof/Machine/Assembler.lean ====
section
/-! DEFINITION. Sys2Proof/Machine/Assembler.lean: the textual syntax (30_encoding.md R45), the
pseudo-instructions (R46) and the written encoding of a request (R47). Texts are lists of characters.
What R45 leaves open (spaces, lower-case hex digits, numbers out of range) is fixed in log 11. -/

namespace Sys2Proof.Machine

/-- A line of assembly: one of the four operations, or a pseudo-instruction (R45, R46). -/
inductive Stmt where
  | op (i : Instr)
  /-- `TRUNC <value>, <bits>` -/
  | trunc (value bits : Word)
  /-- `TRUNCA [<w...>], <bits>` -/
  | trunca (data : List Word) (bits : Word)
  deriving DecidableEq, Repr

/-- Pseudo-instructions carry the source's default `round = true` (R46, R25). -/
def Stmt.expand : Stmt → Instr
  | .op i => i
  | .trunc value bits => .truncR value bits
  | .trunca data bits => .truncaR data bits

/-- A digit, upper case, of a value below 16. -/
def digitChar (n : Nat) : Char :=
  if n < 10 then Char.ofNat (48 + n) else Char.ofNat (55 + n)

/-- The value of a hex digit, either case (log 11). -/
def digitVal (c : Char) : Option Nat :=
  if 48 ≤ c.toNat ∧ c.toNat ≤ 57 then some (c.toNat - 48)
  else if 65 ≤ c.toNat ∧ c.toNat ≤ 70 then some (c.toNat - 55)
  else if 97 ≤ c.toNat ∧ c.toNat ≤ 102 then some (c.toNat - 87)
  else none

/-- The low `k` hex digits of `n`, most significant first. -/
def hexDigits : Nat → Nat → List Char
  | 0, _ => []
  | k + 1, n => hexDigits k (n / 16) ++ [digitChar (n % 16)]

/-- Eight hex digits (R47). -/
def hexWord (w : Word) : List Char := hexDigits 8 w.toNat

/-- A pattern written `0x` followed by 8 hex digits (R45). -/
def hexPattern (w : Word) : List Char := '0' :: 'x' :: hexWord w

/-- The decimal digits of `n`, at most `fuel` of them. -/
def decDigits : Nat → Nat → List Char
  | 0, _ => []
  | fuel + 1, n =>
    if n < 10 then [digitChar n] else decDigits fuel (n / 10) ++ [digitChar (n % 10)]

/-- `<bits>`: a decimal integer, with a minus sign when negative (R45). Ten digits hold every value. -/
def bitsText (bits : Word) : List Char :=
  if sext32 bits < 0 then '-' :: decDigits 10 (sext32 bits).natAbs
  else decDigits 10 (sext32 bits).natAbs

/-- The elements of a sequence, each written by `f`, separated by a comma and a space. -/
def commaSeparated (f : Word → List Char) : List Word → List Char
  | [] => []
  | [w] => f w
  | w :: ws => f w ++ ',' :: ' ' :: commaSeparated f ws

/-- A bracketed sequence; `[]` is the empty one (R45, R47). -/
def sequenceText (f : Word → List Char) (ws : List Word) : List Char :=
  '[' :: commaSeparated f ws ++ [']']

/-- One line of assembly for a scalar statement (R45). -/
def scalarLine (mnemonic : String) (value bits : Word) : List Char :=
  mnemonic.toList ++ ' ' :: hexPattern value ++ ',' :: ' ' :: bitsText bits

/-- One line of assembly for an array statement (R45). -/
def arrayLine (mnemonic : String) (data : List Word) (bits : Word) : List Char :=
  mnemonic.toList ++ ' ' :: sequenceText hexPattern data ++ ',' :: ' ' :: bitsText bits

/-- The text of a statement (R45, R46). -/
def Stmt.text : Stmt → List Char
  | .op (.truncZ value bits) => scalarLine "TRUNC.Z" value bits
  | .op (.truncR value bits) => scalarLine "TRUNC.R" value bits
  | .op (.truncaZ data bits) => arrayLine "TRUNCA.Z" data bits
  | .op (.truncaR data bits) => arrayLine "TRUNCA.R" data bits
  | .trunc value bits => scalarLine "TRUNC" value bits
  | .trunca data bits => arrayLine "TRUNCA" data bits

/-- The written encoding of one request (R47): the operand the operation uses, and no other. -/
def writtenEncoding (q : Request) : List Char :=
  "ctrl=".toList
    ++ [if q.isArray then '1' else '0', if q.isRound then '1' else '0']
    ++ " bits=".toList ++ hexWord q.bits
    ++ (if q.isArray then " data=".toList ++ sequenceText hexWord q.data
        else " value=".toList ++ hexWord q.value)

/-- Drop leading spaces. -/
def skipSpaces : List Char → List Char
  | ' ' :: cs => skipSpaces cs
  | cs => cs

/-- Read `k` hex digits after those read into `acc`. -/
def readHex : Nat → Nat → List Char → Option (Nat × List Char)
  | 0, acc, cs => some (acc, cs)
  | _ + 1, _, [] => none
  | k + 1, acc, c :: cs =>
    match digitVal c with
    | some d => readHex k (16 * acc + d) cs
    | none => none

/-- Read a pattern `0x` and 8 hex digits (R45). -/
def readPattern : List Char → Option (Word × List Char)
  | '0' :: 'x' :: cs => (readHex 8 0 cs).map fun r => (BitVec.ofNat 32 r.1, r.2)
  | _ => none

/-- Read the decimal digits there are, after those read into `acc`. -/
def readDec (acc : Nat) : List Char → Nat × List Char
  | [] => (acc, [])
  | c :: cs =>
    if 48 ≤ c.toNat ∧ c.toNat ≤ 57 then readDec (10 * acc + (c.toNat - 48)) cs else (acc, c :: cs)

/-- Read a decimal numeral of at least one digit. -/
def readNat : List Char → Option (Nat × List Char)
  | [] => none
  | c :: cs => if 48 ≤ c.toNat ∧ c.toNat ≤ 57 then some (readDec 0 (c :: cs)) else none

/-- Read `<bits>` and encode it as a 32-bit two's-complement pattern (R45); a value outside
[-2^31, 2^31 - 1] has no such pattern and is no line of assembly (log 11). -/
def readBits : List Char → Option (Word × List Char)
  | '-' :: cs =>
    match readNat cs with
    | some (n, rest) => if n ≤ 2 ^ 31 then some (BitVec.ofInt 32 (-(n : Int)), rest) else none
    | none => none
  | cs =>
    match readNat cs with
    | some (n, rest) => if n < 2 ^ 31 then some (BitVec.ofNat 32 n, rest) else none
    | none => none

/-- Read what follows an element of a sequence: `]`, or a comma and more elements. `fuel` bounds the
number of further elements. -/
def readMore : Nat → List Char → Option (List Word × List Char)
  | fuel, cs =>
    match skipSpaces cs with
    | ']' :: rest => some ([], rest)
    | ',' :: rest =>
      match fuel with
      | 0 => none
      | fuel + 1 =>
        match readPattern (skipSpaces rest) with
        | some (w, rest') => (readMore fuel rest').map fun r => (w :: r.1, r.2)
        | none => none
    | _ => none

/-- Read a bracketed sequence of patterns (R45). -/
def readSequence : List Char → Option (List Word × List Char)
  | '[' :: cs =>
    match skipSpaces cs with
    | ']' :: rest => some ([], rest)
    | cs' =>
      match readPattern cs' with
      | some (w, rest) => (readMore rest.length rest).map fun r => (w :: r.1, r.2)
      | none => none
  | _ => none

/-- Read `, <bits>` to the end of the line. -/
def readTail (cs : List Char) : Option Word :=
  match skipSpaces cs with
  | ',' :: rest =>
    match readBits (skipSpaces rest) with
    | some (bits, rest') => if skipSpaces rest' = [] then some bits else none
    | none => none
  | _ => none

/-- Read `<value>, <bits>` to the end of the line. -/
def readScalar (cs : List Char) : Option (Word × Word) :=
  match readPattern (skipSpaces cs) with
  | some (value, rest) => (readTail rest).map fun bits => (value, bits)
  | none => none

/-- Read `[<w0>, ...], <bits>` to the end of the line. -/
def readArray (cs : List Char) : Option (List Word × Word) :=
  match readSequence (skipSpaces cs) with
  | some (data, rest) => (readTail rest).map fun bits => (data, bits)
  | none => none

/-- The characters before the first of `stop`. -/
def upTo (stop : Char) : List Char → List Char
  | [] => []
  | c :: cs => if c = stop then [] else c :: upTo stop cs

/-- The characters from the first of `stop` on. -/
def dropTo (stop : Char) : List Char → List Char
  | [] => []
  | c :: cs => if c = stop then c :: cs else dropTo stop cs

/-- The statement of one line without its comment (R45, R46). -/
def readStmt (line : List Char) : Option Stmt :=
  let cs := skipSpaces line
  let mnemonic := upTo ' ' cs
  let rest := dropTo ' ' cs
  if mnemonic = "TRUNC.Z".toList then (readScalar rest).map fun p => .op (.truncZ p.1 p.2)
  else if mnemonic = "TRUNC.R".toList then (readScalar rest).map fun p => .op (.truncR p.1 p.2)
  else if mnemonic = "TRUNCA.Z".toList then (readArray rest).map fun p => .op (.truncaZ p.1 p.2)
  else if mnemonic = "TRUNCA.R".toList then (readArray rest).map fun p => .op (.truncaR p.1 p.2)
  else if mnemonic = "TRUNC".toList then (readScalar rest).map fun p => .trunc p.1 p.2
  else if mnemonic = "TRUNCA".toList then (readArray rest).map fun p => .trunca p.1 p.2
  else none

/-- The request of one line; comments begin with `;` (R45). -/
def assembleLine (line : List Char) : Option Request :=
  (readStmt (upTo ';' line)).map fun st => encode st.expand

/-- The requests of a program, one line each (R45); a line with nothing but spaces and a comment gives
none (log 11). -/
def assemble : List (List Char) → Option (List Request)
  | [] => some []
  | line :: lines =>
    if skipSpaces (upTo ';' line) = [] then assemble lines
    else
      match assembleLine line, assemble lines with
      | some q, some qs => some (q :: qs)
      | _, _ => none

end Sys2Proof.Machine
end

