-- ==== Sys2Proof/Machine/Flags.lean ====
section
/-! DEFINITION. Sys2Proof/Machine/Flags.lean: the block has no flags (10_state.md R19, decision D12).
What a requester reads of a response instead: its status bit and, only when OK, its result
(R18, 60_exceptions.md R77). -/

namespace Sys2Proof.Machine

/-- `status`: 0 = OK, 1 = INVALID_ARGUMENT (R77, decision D14). -/
def statusOf : Response → BitVec 1
  | .ok _ => 0#1
  | .error _ => 1#1

/-- `result`, where it is defined: on an OK response of a scalar operation. After INVALID_ARGUMENT no
value exists and none is given (R77, I6). -/
def resultOf : Response → Option Word
  | .ok (.word w) => some w
  | .ok (.words _) => none
  | .error _ => none

/-- `result_data`, where it is defined: on an OK response of an array operation (R77, I6). -/
def resultDataOf : Response → Option (List Word)
  | .ok (.word _) => none
  | .ok (.words ws) => some ws
  | .error _ => none

end Sys2Proof.Machine
end

