-- ==== Sys2Proof/Safety.lean ====
section
/-! DEFINITION. Sys2Proof/Safety.lean: the terms claims use: which `bits` are legal, the arithmetic
reading of the rules (division and remainder, no masks), the response a request must get, the
invariants, and what a safe run is. -/

namespace Sys2Proof.Spec

open Sys2Proof.Machine

/-- `sext_32(bits)` is in [0, 23] (10_state.md R24). -/
abbrev Legal (bits : Word) : Prop := 0 ≤ sext32 bits ∧ sext32 bits ≤ 23

/-- The result of truncation in arithmetic (40_truncate.md R51, R52, R54, R55): with d the remainder of
`v` by 2^n and k the multiple of 2^n below it, the next multiple if rounding is on, that multiple exists
below 2^32, and d is past half; else k. Uniform in n, 0 included. -/
def truncNat (v n : Nat) (round : Bool) : Nat :=
  let d := v % 2 ^ n
  let k := v - d
  if round = true ∧ k + 2 ^ n < 2 ^ 32 ∧ 2 ^ n < 2 * d then k + 2 ^ n else k

/-- `truncNat` on patterns, with `bits` read as the number it is when legal. -/
def truncWord (v bits : Word) (round : Bool) : Word :=
  BitVec.ofNat 32 (truncNat v.toNat bits.toNat round)

/-- 0 <= bits <= 23, read on the unsigned pattern: a pattern above 23 is either a larger integer or a
negative one. -/
def legalPattern (bits : Word) : Bool := decide (bits.toNat ≤ 23)

/-- The response each operation must give (60_exceptions.md R84), from the arithmetic reading. -/
def answer : Instr → Response
  | .truncZ value bits =>
    if legalPattern bits then .ok (.word (truncWord value bits false)) else .error .invalidArgument
  | .truncR value bits =>
    if legalPattern bits then .ok (.word (truncWord value bits true)) else .error .invalidArgument
  | .truncaZ data bits =>
    if legalPattern bits then .ok (.words (data.map fun v => truncWord v bits false))
    else .error .invalidArgument
  | .truncaR data bits =>
    if legalPattern bits then .ok (.words (data.map fun v => truncWord v bits true))
    else .error .invalidArgument

/-- The transaction a request must end in. -/
def transactionOf (q : Request) : Transaction :=
  { request := decode q, response := answer (decode q) }

/-- Every response delivered is the one its request must get. -/
abbrev ServedSound (s : State) : Prop :=
  ∀ t ∈ s.served, t.response = answer t.request

/-- Every request presented respects MAX_ARRAY_LEN (10_state.md R18, 70_reset_and_hazards.md R89). -/
abbrev PendingAllowed (s : State) : Prop :=
  ∀ q ∈ s.pending, (decode q).wellFormed s.maxArrayLen = true

/-- The outcome is a next state: no fault and no refusal. -/
def Goes (o : Host.Outcome State Fault Refusal) : Prop :=
  ∃ t, o = .next t

/-- `k` steps, stopping at the first fault or refusal: `Host.Core.run` of this machine, on its own state
type. -/
def run : Nat → State → Host.Outcome State Fault Refusal
  | 0, s => .next s
  | k + 1, s =>
    match step s with
    | .next t => run k t
    | .fault f => .fault f
    | .refused r => .refused r

/-- The run of `k` steps from `s` meets no fault and no refusal. -/
def SafeRun (k : Nat) (s : State) : Prop :=
  Goes (run k s)

end Sys2Proof.Spec
end

