-- ==== Sys2Proof/Certificates/Slice0/Obligations.lean ====
section
/-! DEFINITION. Sys2Proof/Certificates/Slice0/Obligations.lean: the statements about the block. Nothing is
proved here. `R<n>` is a numbered rule of spec/; where a rule is the spec's own inference ("[derived: …]"),
or a clause is the model's choice, the docstring says so. -/

open Sys2Proof Sys2Proof.Machine Sys2Proof.Spec

/-! ## Operands and masks -/

/-- 10_state.md R24 with decision D2: read as two's complement, `bits` is legal exactly for the patterns
0 to 23; -1 and 24 are not legal. -/
def Obligations.LegalBitsAreThePatternsUpTo23 : Prop :=
  ∀ bits : Word, (Legal bits ↔ bits.toNat ≤ 23) ∧ (bitsInRange (sext32 bits) = true ↔ Legal bits)

/-- 10_state.md R26 as numbers, and the consequence R27 draws ("[derived: …]"): keepMask has bits 31:23. -/
def Obligations.MasksAreTheirNumbers : Prop :=
  ∀ n : Nat, 1 ≤ n → n ≤ 23 →
    (dropMask n).toNat = 2 ^ n - 1 ∧
    (keepMask n).toNat = 2 ^ 32 - 2 ^ n ∧
    (roundThreshold n).toNat = 2 ^ (n - 1) ∧
    (increment n).toNat = 2 ^ n ∧
    ∀ k, 23 ≤ k → k < 32 → (keepMask n).getLsbD k = true

/-! ## Encoding -/

/-- 30_encoding.md R41: every value of `ctrl` selects exactly one operation, which reads these fields. -/
def Obligations.CtrlSelectsOneOperation : Prop :=
  ∀ q : Request,
    (q.ctrl = 0b00#2 → decode q = .truncZ q.value q.bits) ∧
    (q.ctrl = 0b01#2 → decode q = .truncR q.value q.bits) ∧
    (q.ctrl = 0b10#2 → decode q = .truncaZ q.data q.bits) ∧
    (q.ctrl = 0b11#2 → decode q = .truncaR q.data q.bits) ∧
    (q.ctrl = 0b00#2 ∨ q.ctrl = 0b01#2 ∨ q.ctrl = 0b10#2 ∨ q.ctrl = 0b11#2)

/-- Requests written out from the written encodings of 95_test_vectors.md (S1, Z3, A2, A3) decode to the
operations they stand for, as fields and as packed words; the packing is the model's choice (log 8). -/
def Obligations.WrittenRequestsDecode : Prop :=
  decode { ctrl := 0b01#2, value := 0x3EAAAAAB#32, data := [], bits := 0x00000004#32 }
    = .truncR 0x3EAAAAAB#32 4#32 ∧
  decode { ctrl := 0b00#2, value := 0x3EAAAAAB#32, data := [], bits := 0x00000004#32 }
    = .truncZ 0x3EAAAAAB#32 4#32 ∧
  decode { ctrl := 0b10#2, value := 0#32, data := [0x3EAAAAAB#32, 0x00000000#32], bits := 4#32 }
    = .truncaZ [0x3EAAAAAB#32, 0#32] 4#32 ∧
  decodeTableWord 72 (0b01 + 2 ^ 2 * 0x00000004 + 2 ^ 34 * 0x3EAAAAAB)
    = some (.truncR 0x3EAAAAAB#32 4#32) ∧
  decodeTableWord 40 (0b11 + 2 ^ 2 * 0x00000004) = some (.truncaR [] 4#32)

/-- Decode and encode agree on the packed word of every operation with every operand, also when the
length is rounded up (to whole bytes, or anything short of another element). The packing is the model's
choice (log 8); that no field's bit is dropped rests on 30_encoding.md R38, R41. -/
def Obligations.PackedWordRoundTrip : Prop :=
  ∀ (i : Instr) (k : Nat), k < 32 → decodeTableWord (encodedBits i + k) (encodeWord i) = some i

/-- A packed word has one meaning and an operation one packed word: what decodes to `i` in `i`'s own
length is `i`'s word (log 8). -/
def Obligations.PackedWordIsCanonical : Prop :=
  ∀ (nbits w : Nat) (i : Instr), decodeTableWord nbits w = some i → w < 2 ^ nbits →
    nbits = encodedBits i → encodeWord i = w

/-- 30_encoding.md R43: TRUNC.R and TRUNC.Z ignore `data`, TRUNCA.R and TRUNCA.Z ignore `value`; an
ignored field has no effect, whatever it holds. -/
def Obligations.UnusedOperandIsIgnored : Prop :=
  ∀ (s : State) (q q' : Request) (rest : List Request),
    q.ctrl = q'.ctrl → q.bits = q'.bits →
    (q.isArray = false → q.value = q'.value) → (q.isArray = true → q.data = q'.data) →
    step { s with pending := q :: rest } = step { s with pending := q' :: rest }

/-- The text of every statement of 30_encoding.md R45 and R46 reads back as that statement, also with a
comment behind it. The spacing written is the model's choice (log 11). -/
def Obligations.AssemblyTextRoundTrip : Prop :=
  ∀ (st : Stmt) (comment : List Char),
    readStmt st.text = some st ∧
    assembleLine (st.text ++ ';' :: comment) = some (encode st.expand)

/-- 30_encoding.md R46: TRUNC expands to TRUNC.R and TRUNCA to TRUNCA.R, and there is no other
pseudo-instruction. -/
def Obligations.PseudoInstructionsCarryRound : Prop :=
  (∀ value bits : Word, assembleLine (Stmt.text (.trunc value bits))
      = assembleLine (Stmt.text (.op (.truncR value bits))) ∧
    assembleLine (Stmt.text (.trunc value bits)) = some (encode (.truncR value bits))) ∧
  (∀ (data : List Word) (bits : Word), assembleLine (Stmt.text (.trunca data bits))
      = assembleLine (Stmt.text (.op (.truncaR data bits))) ∧
    assembleLine (Stmt.text (.trunca data bits)) = some (encode (.truncaR data bits))) ∧
  (∀ st : Stmt, (∃ i, st = .op i ∧ st.expand = i) ∨ (∃ v b, st = .trunc v b) ∨ (∃ d b, st = .trunca d b))

/-- 30_encoding.md R47: the two written requests it gives. -/
def Obligations.WrittenEncodingExamples : Prop :=
  (assembleLine "TRUNC.R 0x3EAAAAAB, 4".toList).map writtenEncoding
    = some "ctrl=01 bits=00000004 value=3EAAAAAB".toList ∧
  (assembleLine "TRUNC.Z 0x00000000, -1".toList).map writtenEncoding
    = some "ctrl=00 bits=FFFFFFFF value=00000000".toList

/-! ## One step -/

/-- 00_scope.md R13: a step is one complete operation, the operation its request decodes to, run on the
block without that request. (That reset is looked at first is the model's choice, log 3.) -/
def Obligations.StepRunsTheDecodedRequest : Prop :=
  ∀ (s : State) (q : Request) (rest : List Request),
    s.resetAsserted = false → s.pending = q :: rest →
    step s = exec (decode q) { s with pending := rest }

/-- A request packed in a word and presented as the next one is what the next step runs (the model's
choice, logs 8 and 9). -/
def Obligations.PackedWordRunsNext : Prop :=
  ∀ (s : State) (nbits w : Nat) (i : Instr), decodeTableWord nbits w = some i →
    step (s.withFetchWord nbits w) = exec i { s with resetAsserted := false }

/-- With no request and no reset the block waits (the model's choice, log 4). -/
def Obligations.IdleBlockWaits : Prop :=
  ∀ s : State, s.resetAsserted = false → s.pending = [] → step s = .next s

/-- 70_reset_and_hazards.md R87: a request in flight when reset is asserted produces no response and has
no other effect; issued again, it is worked as ever. (That every request presented counts as in flight,
and that reset lasts one step, is the model's choice, log 3.) -/
def Obligations.ResetDropsRequestsInFlight : Prop :=
  ∀ (s : State) (q : Request),
    step s.assertReset
      = .next { pending := [], resetAsserted := false, maxArrayLen := s.maxArrayLen,
                served := s.served } ∧
    ∀ t, step s.assertReset = .next t →
      step (t.present q) = exec (decode q) { s with pending := [], resetAsserted := false }

/-- 70_reset_and_hazards.md R86 ("[derived: …]"): reset cannot be observed through any response. The
request presented after a reset gets the response it gets with no reset before it. -/
def Obligations.ResetIsUnobservable : Prop :=
  ∀ (s t u : State) (q : Request),
    step s.assertReset = .next t →
    step { s with pending := [q], resetAsserted := false } = .next u →
    ∃ x, u.served = s.served ++ [x] ∧
      ∃ t', step (t.present q) = .next t' ∧ t'.served = t.served ++ [x]

/-! ## Results, completion and frames -/

/-- 10_state.md R15, R19, R20 and 70_reset_and_hazards.md R92: an operation that goes on delivers exactly
one response, to its own request, and changes nothing else of the block. For all four operations. -/
def Obligations.ExecDeliversOneResponseOnly : Prop :=
  ∀ (i : Instr) (s t : State), exec i s = .next t →
    t.pending = s.pending ∧ t.resetAsserted = s.resetAsserted ∧ t.maxArrayLen = s.maxArrayLen ∧
    ∃ r, t.served = s.served ++ [{ request := i, response := r }]

/-- 40_truncate.md R51 and R66: TRUNC.Z with legal `bits` completes, clears exactly bits b-1..0 and leaves
bits 31..b as they are; every other part of the block is unchanged. -/
def Obligations.TruncZClearsExactlyTheLowBits : Prop :=
  ∀ (value bits : Word) (s : State), Legal bits →
    ∃ w : Word,
      exec (.truncZ value bits) s
        = .next { s with served := s.served ++ [{ request := .truncZ value bits,
                                                   response := .ok (.word w) }] } ∧
      ∀ k, k < 32 → w.getLsbD k = (decide (bits.toNat ≤ k) && value.getLsbD k)

/-- 40_truncate.md R65 by R48: TRUNC.R with legal `bits` completes. With d the remainder by 2^b and k the
multiple of 2^b below: the result is the next multiple when that is below 2^32 and d is past the midpoint,
else k. -/
def Obligations.TruncRRoundsPastTheMidpoint : Prop :=
  ∀ (value bits : Word) (s : State), Legal bits →
    ∃ w : Word,
      exec (.truncR value bits) s
        = .next { s with served := s.served ++ [{ request := .truncR value bits,
                                                   response := .ok (.word w) }] } ∧
      ∀ d k, d = value.toNat % 2 ^ bits.toNat → k = value.toNat - d →
        (k + 2 ^ bits.toNat < 2 ^ 32 → 2 ^ bits.toNat < 2 * d → w.toNat = k + 2 ^ bits.toNat) ∧
        (¬(k + 2 ^ bits.toNat < 2 ^ 32 ∧ 2 ^ bits.toNat < 2 * d) → w.toNat = k)

/-- 41_truncate_array.md R73 with R68: TRUNCA.Z with legal `bits` and an allowed length completes with one
element for each, and element i is what TRUNC.Z answers for element i (on any block). -/
def Obligations.TruncaZWorksEveryElement : Prop :=
  ∀ (data : List Word) (bits : Word) (s : State), Legal bits →
    lengthAllowed s.maxArrayLen data.length = true →
    ∃ ws : List Word,
      exec (.truncaZ data bits) s
        = .next { s with served := s.served ++ [{ request := .truncaZ data bits,
                                                   response := .ok (.words ws) }] } ∧
      ws.length = data.length ∧
      ∀ (k : Nat) (v : Word) (u : State), data[k]? = some v →
        ∃ w, ws[k]? = some w ∧
          exec (.truncZ v bits) u
            = .next { u with served := u.served ++ [{ request := .truncZ v bits,
                                                       response := .ok (.word w) }] }

/-- 41_truncate_array.md R74 with R68: TRUNCA.R with legal `bits` and an allowed length completes with one
element for each, and element i is what TRUNC.R answers for element i (on any block). -/
def Obligations.TruncaRWorksEveryElement : Prop :=
  ∀ (data : List Word) (bits : Word) (s : State), Legal bits →
    lengthAllowed s.maxArrayLen data.length = true →
    ∃ ws : List Word,
      exec (.truncaR data bits) s
        = .next { s with served := s.served ++ [{ request := .truncaR data bits,
                                                   response := .ok (.words ws) }] } ∧
      ws.length = data.length ∧
      ∀ (k : Nat) (v : Word) (u : State), data[k]? = some v →
        ∃ w, ws[k]? = some w ∧
          exec (.truncR v bits) u
            = .next { u with served := u.served ++ [{ request := .truncR v bits,
                                                       response := .ok (.word w) }] }

/-- 60_exceptions.md R76 and 41_truncate_array.md R70: every operation answers INVALID_ARGUMENT, with no
result element, exactly when `sext_32(bits)` is outside [0, 23], whatever its other operands (a sequence
of any length, the empty one too); -1 and 24 are outside, 0 and 23 inside. -/
def Obligations.InvalidArgumentExactlyOutsideTheRange : Prop :=
  (∀ (i : Instr) (s : State), ¬Legal i.bits →
    exec i s = .next { s with served := s.served ++ [{ request := i,
                                                        response := .error .invalidArgument }] }) ∧
  (∀ (i : Instr) (s t : State), Legal i.bits → exec i s = .next t →
    ∃ r, t.served = s.served ++ [{ request := i, response := .ok r }]) ∧
  ¬Legal (BitVec.ofInt 32 (-1)) ∧ ¬Legal 24#32 ∧ Legal 0#32 ∧ Legal 23#32

/-- 60_exceptions.md R77 with 10_state.md R18: what a requester reads of the response of an operation that
went on. Status 1 exactly for illegal `bits`, and then no result exists; status 0 comes with the one result
the operation has, `result_data` of the length of `data`. -/
def Obligations.StatusAndResultAgree : Prop :=
  ∀ (i : Instr) (s t : State) (r : Response), exec i s = .next t →
    t.served = s.served ++ [{ request := i, response := r }] →
    (statusOf r = 1#1 ↔ ¬Legal i.bits) ∧
    (statusOf r = 1#1 → resultOf r = none ∧ resultDataOf r = none) ∧
    (statusOf r = 0#1 →
      if (encode i).isArray then
        resultOf r = none ∧ ∃ ws, resultDataOf r = some ws ∧ ws.length = i.data.length
      else resultDataOf r = none ∧ ∃ w, resultOf r = some w)

/-- Where the model stops, and only there (the model's choice, logs 6 and 7, from decision D5): a TRUNCA
with legal `bits` whose sequence is longer than a finite MAX_ARRAY_LEN. -/
def Obligations.OnlyOverlongArraysAreRefused : Prop :=
  ∀ (i : Instr) (s : State),
    (∀ r, exec i s = .refused r ↔
      r = .arrayTooLong i.data.length ∧ Legal i.bits ∧
        ∃ m, s.maxArrayLen = some m ∧ m < i.data.length) ∧
    (∀ f, exec i s ≠ .fault f)

/-! ## The scalar algorithm -/

/-- 40_truncate.md R48, line by line. -/
def Obligations.TruncateCoreIsRule48 : Prop :=
  ∀ (intVal : Word) (b : Int) (round : Bool),
    (b < 0 ∨ 23 < b → truncateCore intVal b round = .error .invalidArgument) ∧
    (b = 0 → truncateCore intVal b round = .ok intVal) ∧
    (1 ≤ b → b ≤ 23 → ∀ dropMask keepMask truncated dropped roundThreshold : Word,
      dropMask = (1#32 <<< b.toNat) - 1#32 → keepMask = ~~~dropMask →
      truncated = intVal &&& keepMask → dropped = intVal &&& dropMask →
      roundThreshold = 1#32 <<< (b.toNat - 1) →
      truncateCore intVal b round =
        .ok (if round = true ∧ truncated < keepMask ∧ roundThreshold < dropped
             then truncated + (1#32 <<< b.toNat) else truncated))

/-- R48 in arithmetic (division and remainder instead of masks), for every pattern, every `bits` and both
values of `round`: the model's masks compute the arithmetic reading of `Spec.truncNat`. -/
def Obligations.TruncateCoreIsTheArithmetic : Prop :=
  ∀ (v bits : Word) (round : Bool),
    (Legal bits → ∃ w : Word, truncateCore v (sext32 bits) round = .ok w ∧
      w.toNat = truncNat v.toNat bits.toNat round) ∧
    (¬Legal bits → truncateCore v (sext32 bits) round = .error .invalidArgument)

/-- 40_truncate.md R50: identity at `bits = 0`, for every pattern and both values of `round`. -/
def Obligations.ZeroBitsIsTheIdentity : Prop :=
  ∀ (v : Word) (round : Bool) (s : State),
    truncateCore v 0 round = .ok v ∧
    exec (.truncZ v 0#32) s
      = .next { s with served := s.served ++ [{ request := .truncZ v 0#32,
                                                 response := .ok (.word v) }] } ∧
    exec (.truncR v 0#32) s
      = .next { s with served := s.served ++ [{ request := .truncR v 0#32,
                                                 response := .ok (.word v) }] }

/-- 40_truncate.md R52 ("[derived: …]"): the guard fails exactly when every kept bit is 1; then no rounding
happens. For b <= 22 such a pattern is a NaN with the sign set; for b = 23 also negative infinity, and the
result is 0xFF800000. (The classes rest on the spec's general knowledge, log 10.) -/
def Obligations.GuardFailsExactlyOnAllOnes : Prop :=
  ∀ (v : Word) (n : Nat), 1 ≤ n → n ≤ 23 →
    (masked v n).toNat ≤ (keepMask n).toNat ∧
    (roundGuard v n = false ↔ ∀ k, n ≤ k → k < 32 → v.getLsbD k = true) ∧
    (roundGuard v n = false → ∀ round : Bool,
      truncateLegal v n round = masked v n ∧
      signBit v = true ∧
      (n ≤ 22 → classify v = .nan) ∧
      (n = 23 → truncateLegal v n round = 0xFF800000#32 ∧
        (v = 0xFF800000#32 ∨ classify v = .nan)))

/-- 40_truncate.md R53 ("[derived: …]"): when the guard holds the addition is exact, and the
shift/add/shift form gives the same word. -/
def Obligations.RoundUpNeverWraps : Prop :=
  ∀ (v : Word) (n : Nat), 1 ≤ n → n ≤ 23 →
    (roundGuard v n = true →
      (masked v n).toNat + 2 ^ n ≤ (keepMask n).toNat ∧
      (masked v n + increment n).toNat = (masked v n).toNat + 2 ^ n) ∧
    ((v >>> n) + 1#32) <<< n = masked v n + increment n

/-- 40_truncate.md R54 and R55: when the guard holds, the rounded result is the nearest multiple of 2^b,
and of two equally near ones the smaller; so an exact tie is not rounded up, whatever the kept bits. -/
def Obligations.RoundedResultIsNearest : Prop :=
  ∀ (v : Word) (n m : Nat), 1 ≤ n → n ≤ 23 → roundGuard v n = true → 2 ^ n ∣ m →
    2 ^ n ∣ (truncateLegal v n true).toNat ∧
    |((truncateLegal v n true).toNat : Int) - v.toNat| ≤ |(m : Int) - v.toNat| ∧
    (|((truncateLegal v n true).toNat : Int) - v.toNat| = |(m : Int) - v.toNat| →
      (truncateLegal v n true).toNat ≤ m) ∧
    (v.toNat % 2 ^ n = 2 ^ (n - 1) → truncateLegal v n true = masked v n)

/-- 40_truncate.md R56 ("[derived: …]"): rounding is symmetric about zero. Where the rounded positive
pattern keeps bit 31 clear, the negative pattern gives the same one with the sign set. -/
def Obligations.RoundingIsSymmetricAboutZero : Prop :=
  ∀ (v : Word) (b : Int) (w : Word), v.getLsbD 31 = false →
    truncateCore v b true = .ok w → w.getLsbD 31 = false →
    truncateCore (v ||| 0x80000000#32) b true = .ok (w ||| 0x80000000#32)

/-- 40_truncate.md R57 ("[derived: …]"): with every kept mantissa bit 1 and the dropped bits past the
midpoint, the round-up carries into bits 31:23, which grow by one as one 9-bit number, and the mantissa is
zero; only all ones in bits 31:23 (the guard) prevent it. -/
def Obligations.CarryReachesExponentAndSign : Prop :=
  ∀ (v : Word) (n : Nat), 1 ≤ n → n ≤ 23 →
    (∀ k, n ≤ k → k < 23 → v.getLsbD k = true) → 2 ^ n < 2 * (v.toNat % 2 ^ n) →
    v.toNat / 2 ^ 23 ≠ 0x1FF →
    (truncateLegal v n true).toNat = (v.toNat / 2 ^ 23 + 1) * 2 ^ 23

/-- 40_truncate.md R58 (a) to (e) ("[derived: …]"), for every pattern and every b in [0, 23]. -/
def Obligations.ResultInvariants : Prop :=
  ∀ (v : Word) (n : Nat), n ≤ 23 →
    (∀ round : Bool, (truncateLegal v n round).toNat % 2 ^ n = 0) ∧
    (∀ round : Bool, truncateLegal v n round = masked v n ∨
      truncateLegal v n round = masked v n + increment n) ∧
    truncateLegal v n false = v &&& keepMask n ∧
    (1 ≤ n → roundGuard v n = true →
      -(2 ^ (n - 1) : Int) ≤ (truncateLegal v n true).toNat - (v.toNat : Int) ∧
      (truncateLegal v n true).toNat - (v.toNat : Int) ≤ 2 ^ (n - 1) - 1) ∧
    (1 ≤ n → roundGuard v n = false →
      -(2 ^ n - 1 : Int) ≤ (truncateLegal v n true).toNat - (v.toNat : Int) ∧
      (truncateLegal v n true).toNat ≤ v.toNat) ∧
    (0 ≤ (v.toNat : Int) - (truncateLegal v n false).toNat ∧
      (v.toNat : Int) - (truncateLegal v n false).toNat ≤ 2 ^ n - 1) ∧
    (n = 0 → ∀ round : Bool, truncateLegal v n round = v)

/-- 40_truncate.md R59 by decision D4: zeros and infinities of either sign are unchanged for every legal
`bits` and both values of `round`. -/
def Obligations.ZerosAndInfinitiesAreUnchanged : Prop :=
  ∀ (v bits : Word) (round : Bool), Legal bits →
    v = 0x00000000#32 ∨ v = 0x80000000#32 ∨ v = 0x7F800000#32 ∨ v = 0xFF800000#32 →
    truncateCore v (sext32 bits) round = .ok v

/-- 40_truncate.md R60 (informative, "[derived: …]", with the value reading of log 10): for a normal input
and a result that is not infinite, the rounding path keeps the sign and errs by at most 2^(b-24) of the
input's magnitude. -/
def Obligations.RoundingErrorBound : Prop :=
  ∀ (v : Word) (n : Nat), n ≤ 23 → classify v = .normal →
    classify (truncateLegal v n true) ≠ .infinity →
    signBit (truncateLegal v n true) = signBit v ∧
    |(magnitude (truncateLegal v n true) : Int) - magnitude v| * 2 ^ 24 ≤ 2 ^ n * magnitude v

/-- 40_truncate.md R60 (informative, "[derived: …]", log 10): without rounding a normal input stays normal,
keeps its sign, never grows, and errs by less than 2^(b-23) of its magnitude. -/
def Obligations.MaskingErrorBound : Prop :=
  ∀ (v : Word) (n : Nat), n ≤ 23 → classify v = .normal →
    classify (truncateLegal v n false) = .normal ∧
    signBit (truncateLegal v n false) = signBit v ∧
    magnitude (truncateLegal v n false) ≤ magnitude v ∧
    (magnitude v - magnitude (truncateLegal v n false)) * 2 ^ 23 < 2 ^ n * magnitude v

/-- 40_truncate.md R61 ("[derived: …]"): idempotence is exact, for both values of `round`. -/
def Obligations.TruncationIsIdempotent : Prop :=
  ∀ (v : Word) (b : Int) (round : Bool) (w : Word),
    truncateCore v b round = .ok w → truncateCore w b round = .ok w

/-- 40_truncate.md R62 ("[derived: …]"): masking more keeps a subset of the bits, and masking twice is
masking once with the larger count. -/
def Obligations.MaskingComposes : Prop :=
  ∀ (v : Word) (b1 b2 : Int) (w1 w2 : Word), b1 ≤ b2 →
    truncateCore v b1 false = .ok w1 → truncateCore v b2 false = .ok w2 →
    w2 &&& ~~~w1 = 0#32 ∧ truncateCore w1 b2 false = .ok w2

/-- 40_truncate.md R63 ("[derived: …]"): rounding twice is not rounding once, by the rule's own example. -/
def Obligations.DoubleRoundingDiffers : Prop :=
  truncateCore 0x3F800009#32 2 true = .ok 0x3F800008#32 ∧
  truncateCore 0x3F800008#32 4 true = .ok 0x3F800000#32 ∧
  truncateCore 0x3F800009#32 4 true = .ok 0x3F800010#32 ∧
  ¬∀ (v w1 w2 : Word) (b1 b2 : Int), b1 < b2 → truncateCore v b1 true = .ok w1 →
    truncateCore w1 b2 true = .ok w2 → truncateCore v b2 true = .ok w2

/-- 40_truncate.md R64 ("[derived: …]"): at b = 23 masking keeps exactly bits 31:23, and rounding zeroes the
mantissa and keeps bits 31:23 but for the carry; with the rule's two examples. -/
def Obligations.MaximumTruncation : Prop :=
  (∀ v : Word,
    truncateCore v 23 false = .ok (v &&& 0xFF800000#32) ∧
    ∃ w, truncateCore v 23 true = .ok w ∧ mantissa w = 0#23 ∧
      w.toNat / 2 ^ 23 = v.toNat / 2 ^ 23 +
        (if 0x400000 < (mantissa v).toNat ∧ v.toNat / 2 ^ 23 ≠ 0x1FF then 1 else 0)) ∧
  truncateCore 0x3FC00001#32 23 true = .ok 0x40000000#32 ∧
  truncateCore 0x3F7FFFFF#32 23 true = .ok 0x3F800000#32

/-- 40_truncate.md R67 ("[derived: …]"): at b = 1 the two scalar operations answer the same, with the
rule's two examples. -/
def Obligations.BitsOneNeverRounds : Prop :=
  (∀ v : Word, ∃ w, truncateCore v 1 true = .ok w ∧ truncateCore v 1 false = .ok w) ∧
  truncateCore 0x3F800001#32 1 true = .ok 0x3F800000#32 ∧
  truncateCore 0x3EAAAAAB#32 1 true = .ok 0x3EAAAAAA#32

/-! ## The array algorithm -/

/-- 41_truncate_array.md R69 and R75 ("[derived: …]"): length and order are kept, and every element is the
scalar answer for its own element; a sequence of length 1 is the scalar form; the empty one gives the
empty one. -/
def Obligations.ArrayAgreesWithScalar : Prop :=
  ∀ (data : List Word) (b : Int) (round : Bool), 0 ≤ b → b ≤ 23 →
    ∃ ws : List Word, truncateArrayCore data b round = .ok ws ∧ ws.length = data.length ∧
      (∀ (k : Nat) (v : Word), data[k]? = some v →
        ∃ w, ws[k]? = some w ∧ truncateCore v b round = .ok w) ∧
      (data = [] → ws = []) ∧
      (∀ v w : Word, data = [v] → (ws = [w] ↔ truncateCore v b round = .ok w))

/-- 41_truncate_array.md R71 and R72: worked in place, in any order that takes every place once, the
elements come out as the copying form gives them. -/
def Obligations.InPlaceOrderDoesNotMatter : Prop :=
  ∀ (data : List Word) (order : List Nat) (b : Int) (round : Bool) (ws : List Word),
    order.Perm (List.range data.length) → truncateArrayCore data b round = .ok ws →
    truncateInPlace order data b.toNat round = ws

/-! ## The whole machine -/

/-- The invariants hold after reset. -/
def Obligations.ResetMeetsTheInvariants : Prop :=
  ServedSound State.reset ∧ PendingAllowed State.reset

/-- 60_exceptions.md R84: every response delivered, to any request by any operation, is the function of its
request that the arithmetic reading gives, and every step keeps it so. -/
def Obligations.EveryStepKeepsResponsesSound : Prop :=
  ∀ s t : State, ServedSound s → step s = .next t → ServedSound t

/-- 10_state.md R15, 70_reset_and_hazards.md R92: no step changes a response that was delivered; a step
delivers at most one more, never changes MAX_ARRAY_LEN, and never adds a request. -/
def Obligations.DeliveredResponsesStay : Prop :=
  ∀ s t : State, step s = .next t →
    s.served <+: t.served ∧ t.served.length ≤ s.served.length + 1 ∧
    t.maxArrayLen = s.maxArrayLen ∧ t.pending <:+ s.pending

/-- 60_exceptions.md R78, R80: while every request presented respects MAX_ARRAY_LEN (R18), no run of any
length meets a fault or a refusal, whatever the operands, and the invariant is kept. -/
def Obligations.AllowedRunsNeverStop : Prop :=
  (∀ s t : State, PendingAllowed s → step s = .next t → PendingAllowed t) ∧
  (∀ (k : Nat) (s : State), PendingAllowed s → SafeRun k s)

/-- 60_exceptions.md R84 and 70_reset_and_hazards.md R92, for any block with any requests presented: as many
steps as there are requests answer every one, in order, each with the response its own request must get,
and leave everything else as it was. That every request is answered is the model's step itself, where the
spec has a fairness assumption (R91: log 12). "In order" is the order of `pending`, the model's choice
(log 1). -/
def Obligations.RunAnswersEveryRequest : Prop :=
  ∀ s : State, s.resetAsserted = false → PendingAllowed s →
    run s.pending.length s
      = .next { s with pending := [], served := s.served ++ s.pending.map transactionOf }

/-- 20_memory.md R35 (c), 60_exceptions.md R84: worked in another order, the same requests get the same
responses, only the order of delivery differs. In either order all requests are answered, each with the
response it must get, and the deliveries are permutations of each other. An order of work is an order of
`pending`, the model's choice (log 1). That all are answered is the model's step itself, where the spec has
a fairness assumption (R91: log 12). -/
def Obligations.OrderOfWorkDoesNotMatter : Prop :=
  ∀ (s : State) (pending' : List Request), s.resetAsserted = false → PendingAllowed s →
    pending'.Perm s.pending →
    ∃ t t' : State,
      run s.pending.length s = .next t ∧
      run s.pending.length { s with pending := pending' } = .next t' ∧
      t.pending = [] ∧ t'.pending = [] ∧
      t.served.Perm (s.served ++ s.pending.map transactionOf) ∧
      t'.served.Perm (s.served ++ s.pending.map transactionOf) ∧
      t'.served.Perm t.served

/-- 60_exceptions.md R84: the response to a request depends on that request alone: two blocks with different
histories and different other requests answer the same request alike. -/
def Obligations.ResponseDependsOnRequestAlone : Prop :=
  ∀ (s s' t : State) (q : Request) (rest rest' : List Request),
    s.resetAsserted = false → s'.resetAsserted = false → s.maxArrayLen = s'.maxArrayLen →
    s.pending = q :: rest → s'.pending = q :: rest' → step s = .next t →
    ∃ (x : Transaction) (t' : State), step s' = .next t' ∧
      t.served = s.served ++ [x] ∧ t'.served = s'.served ++ [x]

/-- 60_exceptions.md R80: after an InvalidArgument the block accepts the next request as if none had failed:
two steps with a failing request first answer the second request as one step without it does. -/
def Obligations.ErrorDoesNotDisturbTheNextRequest : Prop :=
  ∀ (s u : State) (bad q : Request) (rest : List Request),
    s.resetAsserted = false → ¬Legal bad.bits →
    step { s with pending := q :: rest } = .next u →
    ∃ t x, run 2 { s with pending := bad :: q :: rest } = .next t ∧
      t.pending = u.pending ∧ u.served = s.served ++ [x] ∧
      t.served = s.served ++ [{ request := decode bad, response := .error .invalidArgument }] ++ [x]
end

