-- ==== Sys2Proof/Laws/PerInstr.lean ====
section
/-! SUPPORT. Sys2Proof/Laws/PerInstr.lean: what holds of every operation as syntax, one lemma per
constructor. -/

namespace Sys2Proof.Laws.FieldRoundTrip

/-- Decoding the fields of the instruction's request gives the instruction back, whatever the field it
does not use holds (30_encoding.md R41, R43). -/
def Statement (i : Instr) : Prop :=
  decode (encode i) = i ∧
  ∀ (v : Word) (d : List Word),
    decode (if (encode i).isArray then { encode i with value := v } else { encode i with data := d }) = i

theorem truncZ (value bits : Word) : Statement (.truncZ value bits) :=
  by simp [Statement, encode, decode, Request.isArray, Request.isRound]

theorem truncR (value bits : Word) : Statement (.truncR value bits) :=
  by simp [Statement, encode, decode, Request.isArray, Request.isRound]

theorem truncaZ (data : List Word) (bits : Word) : Statement (.truncaZ data bits) :=
  by simp [Statement, encode, decode, Request.isArray, Request.isRound]

theorem truncaR (data : List Word) (bits : Word) : Statement (.truncaR data bits) :=
  by simp [Statement, encode, decode, Request.isArray, Request.isRound]

end Sys2Proof.Laws.FieldRoundTrip
end

