-- ==== Sys2Proof/Laws/State.lean ====
section
/-! SUPPORT. Sys2Proof/Laws/State.lean: each field after each update, so that no proof unfolds one. -/

namespace Sys2Proof.Machine

@[simp] theorem present_pending (s : State) (q : Request) :
    (s.present q).pending = s.pending ++ [q] := rfl
@[simp] theorem present_resetAsserted (s : State) (q : Request) :
    (s.present q).resetAsserted = s.resetAsserted := rfl
@[simp] theorem present_maxArrayLen (s : State) (q : Request) :
    (s.present q).maxArrayLen = s.maxArrayLen := rfl
@[simp] theorem present_served (s : State) (q : Request) : (s.present q).served = s.served := rfl

@[simp] theorem assertReset_pending (s : State) : s.assertReset.pending = s.pending := rfl
@[simp] theorem assertReset_resetAsserted (s : State) : s.assertReset.resetAsserted = true := rfl
@[simp] theorem assertReset_maxArrayLen (s : State) :
    s.assertReset.maxArrayLen = s.maxArrayLen := rfl
@[simp] theorem assertReset_served (s : State) : s.assertReset.served = s.served := rfl

@[simp] theorem presentNext_pending (s : State) (q : Request) :
    (s.presentNext q).pending = q :: s.pending := rfl
@[simp] theorem presentNext_resetAsserted (s : State) (q : Request) :
    (s.presentNext q).resetAsserted = false := rfl
@[simp] theorem presentNext_maxArrayLen (s : State) (q : Request) :
    (s.presentNext q).maxArrayLen = s.maxArrayLen := rfl
@[simp] theorem presentNext_served (s : State) (q : Request) :
    (s.presentNext q).served = s.served := rfl

@[simp] theorem takeReset_pending (s : State) : s.takeReset.pending = [] := rfl
@[simp] theorem takeReset_resetAsserted (s : State) : s.takeReset.resetAsserted = false := rfl
@[simp] theorem takeReset_maxArrayLen (s : State) : s.takeReset.maxArrayLen = s.maxArrayLen := rfl
@[simp] theorem takeReset_served (s : State) : s.takeReset.served = s.served := rfl

@[simp] theorem deliver_pending (s : State) (i : Instr) (r : Response) :
    (s.deliver i r).pending = s.pending := rfl
@[simp] theorem deliver_resetAsserted (s : State) (i : Instr) (r : Response) :
    (s.deliver i r).resetAsserted = s.resetAsserted := rfl
@[simp] theorem deliver_maxArrayLen (s : State) (i : Instr) (r : Response) :
    (s.deliver i r).maxArrayLen = s.maxArrayLen := rfl
@[simp] theorem deliver_served (s : State) (i : Instr) (r : Response) :
    (s.deliver i r).served = s.served ++ [{ request := i, response := r }] := rfl

@[simp] theorem takeRequest_nil (s : State) (h : s.pending = []) : s.takeRequest = none := by
  simp [State.takeRequest, h]
@[simp] theorem takeRequest_cons (s : State) (q : Request) (rest : List Request)
    (h : s.pending = q :: rest) : s.takeRequest = some (q, { s with pending := rest }) := by
  simp [State.takeRequest, h]

end Sys2Proof.Machine
end

