-- ==== Sys2Proof/Laws/Truncate.lean ====
section
/-! SUPPORT. Sys2Proof/Laws/Truncate.lean: the masks and the parts of the algorithm as numbers, and what
the two core functions can answer. -/

namespace Sys2Proof.Machine

theorem one_shiftLeft_toNat {n : Nat} (h : n < 32) : (1#32 <<< n).toNat = 2 ^ n := by
  have : 2 ^ n < 2 ^ 32 := Nat.pow_lt_pow_right (by omega) h
  simp only [BitVec.toNat_shiftLeft, BitVec.toNat_ofNat, Nat.shiftLeft_eq]
  rw [Nat.mod_eq_of_lt (a := 1) (by omega), Nat.one_mul, Nat.mod_eq_of_lt this]

theorem increment_toNat {n : Nat} (h : n < 32) : (increment n).toNat = 2 ^ n :=
  one_shiftLeft_toNat h

theorem roundThreshold_toNat {n : Nat} (h : n ≤ 32) : (roundThreshold n).toNat = 2 ^ (n - 1) :=
  one_shiftLeft_toNat (by omega)

theorem dropMask_toNat {n : Nat} (h : n < 32) : (dropMask n).toNat = 2 ^ n - 1 := by
  have h1 := one_shiftLeft_toNat h
  have h2 : 2 ^ n < 2 ^ 32 := Nat.pow_lt_pow_right (by omega) h
  have h3 : 0 < 2 ^ n := Nat.two_pow_pos n
  rw [dropMask, BitVec.toNat_sub, h1]
  simp only [BitVec.toNat_ofNat]
  omega

theorem keepMask_toNat {n : Nat} (h : n < 32) : (keepMask n).toNat = 2 ^ 32 - 2 ^ n := by
  have h3 : 0 < 2 ^ n := Nat.two_pow_pos n
  rw [keepMask, BitVec.toNat_not, dropMask_toNat h]
  omega

theorem dropped_toNat (v : Word) {n : Nat} (h : n < 32) : (dropped v n).toNat = v.toNat % 2 ^ n := by
  rw [dropped, BitVec.toNat_and, dropMask_toNat h, Nat.and_two_pow_sub_one_eq_mod]

theorem masked_add_dropped (v : Word) (n : Nat) : masked v n + dropped v n = v := by
  rw [masked, dropped, keepMask, BitVec.add_eq_or_of_and_eq_zero]
  · ext k hk
    simp only [BitVec.getElem_or, BitVec.getElem_and, BitVec.getElem_not]
    cases v[k] <;> cases (dropMask n)[k] <;> rfl
  · ext k hk
    simp only [BitVec.getElem_and, BitVec.getElem_not, BitVec.getElem_zero]
    cases v[k] <;> cases (dropMask n)[k] <;> rfl

theorem masked_toNat (v : Word) {n : Nat} (h : n < 32) :
    (masked v n).toNat = v.toNat - v.toNat % 2 ^ n := by
  have h1 : masked v n = v - dropped v n := by
    rw [eq_comm, BitVec.sub_eq_iff_eq_add]; exact (masked_add_dropped v n).symm
  have h2 := Nat.mod_le v.toNat (2 ^ n)
  have h3 := v.isLt
  rw [h1, BitVec.toNat_sub, dropped_toNat v h]
  omega

theorem getLsbD_dropMask {n : Nat} (h : n < 32) (k : Nat) :
    (dropMask n).getLsbD k = decide (k < n) := by
  rw [← BitVec.testBit_toNat, dropMask_toNat h, Nat.testBit_two_pow_sub_one]

theorem getLsbD_masked (v : Word) {n : Nat} (h : n < 32) (k : Nat) :
    (masked v n).getLsbD k = (decide (n ≤ k) && v.getLsbD k) := by
  rw [masked, keepMask, BitVec.getLsbD_and, BitVec.getLsbD_not, getLsbD_dropMask h]
  by_cases hk : k < 32
  · by_cases hn : k < n
    · simp [hn]
    · have : n ≤ k := by omega
      simp [hk, hn, this]
  · simp [BitVec.getLsbD_of_ge v k (by omega)]

theorem bitsInRange_iff (b : Int) : bitsInRange b = true ↔ 0 ≤ b ∧ b ≤ 23 := by
  simp [bitsInRange]

/-- The core answers a word exactly for `b` in range, and which word. -/
theorem truncateCore_eq_ok_iff (v : Word) (b : Int) (round : Bool) (w : Word) :
    truncateCore v b round = .ok w ↔
      (0 ≤ b ∧ b ≤ 23) ∧ truncateLegal v b.toNat round = w := by
  rw [truncateCore, ← bitsInRange_iff]
  cases bitsInRange b <;> simp

/-- The core answers InvalidArgument exactly for `b` out of range. -/
theorem truncateCore_eq_error_iff (v : Word) (b : Int) (round : Bool) (e : InvalidArgument) :
    truncateCore v b round = .error e ↔ ¬(0 ≤ b ∧ b ≤ 23) := by
  rw [truncateCore, ← bitsInRange_iff]
  cases e; cases bitsInRange b <;> simp

/-- The array core answers a sequence exactly for `b` in range, and which sequence. -/
theorem truncateArrayCore_eq_ok_iff (data : List Word) (b : Int) (round : Bool) (ws : List Word) :
    truncateArrayCore data b round = .ok ws ↔
      (0 ≤ b ∧ b ≤ 23) ∧ (data.map fun v => truncateLegal v b.toNat round) = ws := by
  rw [truncateArrayCore, ← bitsInRange_iff]
  cases bitsInRange b <;> simp

/-- The array core answers InvalidArgument exactly for `b` out of range. -/
theorem truncateArrayCore_eq_error_iff (data : List Word) (b : Int) (round : Bool)
    (e : InvalidArgument) :
    truncateArrayCore data b round = .error e ↔ ¬(0 ≤ b ∧ b ≤ 23) := by
  rw [truncateArrayCore, ← bitsInRange_iff]
  cases e; cases bitsInRange b <;> simp

end Sys2Proof.Machine
end

