-- ==== Sys2Proof/Laws/Step.lean ====
section
/-! SUPPORT. Sys2Proof/Laws/Step.lean: everything an operation and a step can answer, said once. -/

namespace Sys2Proof.Machine

/-- All a scalar operation can do: deliver the response of the core. -/
theorem answerScalar_cases (i : Instr) (v bits : Word) (round : Bool) (s : State) :
    (truncateCore v (sext32 bits) round = .error .invalidArgument ∧
      answerScalar i v bits round s = .next (s.deliver i (.error .invalidArgument))) ∨
    (∃ w, truncateCore v (sext32 bits) round = .ok w ∧
      answerScalar i v bits round s = .next (s.deliver i (.ok (.word w)))) := by
  rw [answerScalar]
  rcases h : truncateCore v (sext32 bits) round with ⟨⟩ | w
  · exact .inl ⟨rfl, rfl⟩
  · exact .inr ⟨w, rfl, rfl⟩

/-- All an array operation can do: deliver the response of the core, or refuse a sequence longer than a
finite MAX_ARRAY_LEN. -/
theorem answerArray_cases (i : Instr) (data : List Word) (bits : Word) (round : Bool) (s : State) :
    (truncateArrayCore data (sext32 bits) round = .error .invalidArgument ∧
      answerArray i data bits round s = .next (s.deliver i (.error .invalidArgument))) ∨
    (∃ ws, truncateArrayCore data (sext32 bits) round = .ok ws ∧
      ((lengthAllowed s.maxArrayLen data.length = true ∧
          answerArray i data bits round s = .next (s.deliver i (.ok (.words ws)))) ∨
       (lengthAllowed s.maxArrayLen data.length = false ∧
          answerArray i data bits round s = .refused (.arrayTooLong data.length)))) := by
  rw [answerArray]
  rcases h : truncateArrayCore data (sext32 bits) round with ⟨⟩ | ws
  · exact .inl ⟨rfl, rfl⟩
  · refine .inr ⟨ws, rfl, ?_⟩
    cases hl : lengthAllowed s.maxArrayLen data.length
    · exact .inr ⟨rfl, rfl⟩
    · exact .inl ⟨rfl, rfl⟩

/-- A next state of an operation is the old one with one response delivered. -/
theorem exec_next_is_deliver {i : Instr} {s t : State} (h : exec i s = .next t) :
    ∃ r, t = s.deliver i r := by
  cases i with
  | truncZ value bits =>
    rcases answerScalar_cases (.truncZ value bits) value bits false s with ⟨-, h'⟩ | ⟨w, -, h'⟩ <;>
      exact ⟨_, (Host.Outcome.next.inj (h.symm.trans h'))⟩
  | truncR value bits =>
    rcases answerScalar_cases (.truncR value bits) value bits true s with ⟨-, h'⟩ | ⟨w, -, h'⟩ <;>
      exact ⟨_, (Host.Outcome.next.inj (h.symm.trans h'))⟩
  | truncaZ data bits =>
    rcases answerArray_cases (.truncaZ data bits) data bits false s with
      ⟨-, h'⟩ | ⟨ws, -, ⟨-, h'⟩ | ⟨-, h'⟩⟩
    · exact ⟨_, (Host.Outcome.next.inj (h.symm.trans h'))⟩
    · exact ⟨_, (Host.Outcome.next.inj (h.symm.trans h'))⟩
    · cases h.symm.trans h'
  | truncaR data bits =>
    rcases answerArray_cases (.truncaR data bits) data bits true s with
      ⟨-, h'⟩ | ⟨ws, -, ⟨-, h'⟩ | ⟨-, h'⟩⟩
    · exact ⟨_, (Host.Outcome.next.inj (h.symm.trans h'))⟩
    · exact ⟨_, (Host.Outcome.next.inj (h.symm.trans h'))⟩
    · cases h.symm.trans h'

/-- All a step can do: take a reset, wait, or run the next request's operation. -/
theorem step_cases (s : State) :
    (s.resetAsserted = true ∧ step s = .next s.takeReset) ∨
    (s.resetAsserted = false ∧ s.pending = [] ∧ step s = .next s) ∨
    (∃ q rest, s.resetAsserted = false ∧ s.pending = q :: rest ∧
      step s = exec (decode q) { s with pending := rest }) := by
  rw [step]
  cases hr : s.resetAsserted
  · cases hp : s.pending with
    | nil => exact .inr (.inl ⟨rfl, rfl, by simp [hp]⟩)
    | cons q rest => exact .inr (.inr ⟨q, rest, rfl, rfl, by simp [takeRequest_cons s q rest hp, hr]⟩)
  · exact .inl ⟨rfl, rfl⟩

/-- A step that takes a request and goes on delivers one response to it and changes nothing else. -/
theorem step_next_cases {s t : State} (h : step s = .next t) :
    t = s.takeReset ∨ t = s ∨
    (∃ q rest r, s.pending = q :: rest ∧ t = State.deliver { s with pending := rest } (decode q) r) := by
  rcases step_cases s with ⟨-, h'⟩ | ⟨-, -, h'⟩ | ⟨q, rest, -, hp, h'⟩
  · exact .inl (Host.Outcome.next.inj (h.symm.trans h'))
  · exact .inr (.inl (Host.Outcome.next.inj (h.symm.trans h')))
  · obtain ⟨r, hr⟩ := exec_next_is_deliver (h'.symm.trans h)
    exact .inr (.inr ⟨q, rest, r, hp, hr⟩)

end Sys2Proof.Machine
end

