-- ==== Sys2Proof/Tests/Slice0.lean ====
section
/-! SUPPORT. Sys2Proof/Tests/Slice0.lean: decoding of written requests, the smoke test of WellFormed, at
most two one-step tests for each operation, and a witness for every statement that has hypotheses.
Expected results are those of spec/95_test_vectors.md (ids in the comments) or of the rule named. -/

namespace Sys2Proof.Tests

open Sys2Proof.Machine Sys2Proof.Spec

/-- A block with one request presented. -/
def blockWith (q : Request) : State := State.reset.present q

/-- The next state of an outcome, if it is one. -/
def nextOf : Host.Outcome State Fault Refusal → Option State
  | .next t => some t
  | .fault _ => none
  | .refused _ => none

theorem eq_next_of_nextOf {o : Host.Outcome State Fault Refusal} {t : State}
    (h : nextOf o = some t) : o = .next t := by
  cases o with
  | next u => exact congrArg _ (Option.some.inj h)
  | fault f => cases h
  | refused r => cases h

/-- The responses after one step on a block with one request. -/
def answersTo (q : Request) : Option (List Response) :=
  (nextOf (step (blockWith q))).map State.responses

/-! ## Decoding (R38, R41, R47) -/

-- Z3: ctrl=00 bits=00000004 value=3EAAAAAB
theorem test_decode_truncZ :
    decode { ctrl := 0b00#2, value := 0x3EAAAAAB#32, data := [], bits := 0x00000004#32 }
      = .truncZ 0x3EAAAAAB#32 4#32 := by decide

-- T6: ctrl=01 bits=00000004 value=3EAAAAAB
theorem test_decode_truncR :
    decode { ctrl := 0b01#2, value := 0x3EAAAAAB#32, data := [], bits := 0x00000004#32 }
      = .truncR 0x3EAAAAAB#32 4#32 := by decide

-- A2: ctrl=10 bits=00000004 data=[3EAAAAAB, 00000000]
theorem test_decode_truncaZ :
    decode { ctrl := 0b10#2, value := 0#32, data := [0x3EAAAAAB#32, 0x00000000#32], bits := 4#32 }
      = .truncaZ [0x3EAAAAAB#32, 0#32] 4#32 := by decide

-- A6: ctrl=11 bits=00000004 data=[3F800008]
theorem test_decode_truncaR :
    decode { ctrl := 0b11#2, value := 0#32, data := [0x3F800008#32], bits := 4#32 }
      = .truncaR [0x3F800008#32] 4#32 := by decide

-- The four ctrl values of R41 as table words of one byte.
theorem test_table_words :
    decodeTableWord 8 0b00 = some (.truncZ 0#32 0#32) ∧
    decodeTableWord 8 0b01 = some (.truncR 0#32 0#32) ∧
    decodeTableWord 8 0b10 = some (.truncaZ [] 0#32) ∧
    decodeTableWord 8 0b11 = some (.truncaR [] 0#32) := by decide

-- A2 bit by bit in the packing of log 8: two elements, then bits = 4, then ctrl = 10.
theorem test_packed_truncaZ :
    decodeTableWord 104
      (0b00000000000000000000000000000000_00111110101010101010101010101011_00000000000000000000000000000100_10)
      = some (.truncaZ [0x3EAAAAAB#32, 0#32] 4#32) := by decide

-- T6 bit by bit in the packing of log 8.
theorem test_packed_truncR :
    decodeTableWord 72
      (0b00111110101010101010101010101011_00000000000000000000000000000100_01)
      = some (.truncR 0x3EAAAAAB#32 4#32) := by decide

-- E3 as a line of assembly with a comment (R45, R47).
theorem test_assemble_negative_bits :
    assembleLine "TRUNC.Z 0x3EAAAAAB, -1 ; E3".toList
      = some { ctrl := 0b00#2, value := 0x3EAAAAAB#32, data := [], bits := 0xFFFFFFFF#32 } := by
  decide

-- Two lines and a comment line (R45), the second a pseudo-instruction (R46).
theorem test_assemble_program :
    assemble ["TRUNCA.Z [], 4".toList, "  ; nothing".toList, "TRUNCA [0x3F800008], 4".toList]
      = some [encode (.truncaZ [] 4#32), encode (.truncaR [0x3F800008#32] 4#32)] := by decide

/-! ## WellFormed (R18) -/

theorem test_wellFormed_refuses_overlong :
    Instr.wellFormed (some 1) (.truncaZ [1#32, 2#32] 4#32) = false ∧
    Instr.wellFormed (some 1) (.truncaR [1#32, 2#32] 4#32) = false := by decide

theorem test_wellFormed_accepts :
    Instr.wellFormed (some 2) (.truncaZ [1#32, 2#32] 4#32) = true ∧
    Instr.wellFormed none (.truncaR [1#32, 2#32] 4#32) = true ∧
    Instr.wellFormed (some 0) (.truncR 1#32 99#32) = true := by decide

/-! ## One step of each operation -/

-- Z5
theorem test_truncZ_never_carries :
    answersTo (encode (.truncZ 0x3F7FFFFF#32 23#32)) = some [.ok (.word 0x3F000000#32)] := by decide

-- E7
theorem test_truncZ_rejects_most_negative :
    answersTo (encode (.truncZ 0x3EAAAAAB#32 0x80000000#32)) = some [.error .invalidArgument] := by
  decide

-- T13: a tie with an odd kept bit
theorem test_truncR_tie_is_not_to_even :
    answersTo (encode (.truncR 0x3F800018#32 4#32)) = some [.ok (.word 0x3F800010#32)] := by decide

-- T24: the carry reaches the sign bit
theorem test_truncR_carry_reaches_sign :
    answersTo (encode (.truncR 0x7FFFFFFF#32 4#32)) = some [.ok (.word 0x80000000#32)] := by decide

-- A8
theorem test_truncaZ_special_patterns :
    answersTo (encode (.truncaZ [0xFFFFFFFF#32, 0x7F800001#32, 0x80000000#32, 0x007FFFFF#32] 23#32))
      = some [.ok (.words [0xFF800000#32, 0x7F800000#32, 0x80000000#32, 0x00000000#32])] := by decide

-- A5
theorem test_truncaZ_error_has_no_element :
    answersTo (encode (.truncaZ [0x3EAAAAAB#32, 0x3F800000#32] 0xFFFFFFFF#32))
      = some [.error .invalidArgument] := by decide

-- A1
theorem test_truncaR_elementwise :
    answersTo (encode (.truncaR [0x3EAAAAAB#32, 0x3F7FFFFF#32, 0x7FFFFFFF#32] 4#32))
      = some [.ok (.words [0x3EAAAAB0#32, 0x3F800000#32, 0x80000000#32])] := by decide

-- A4
theorem test_truncaR_empty_with_bad_bits :
    answersTo (encode (.truncaR [] 24#32)) = some [.error .invalidArgument] := by decide

-- P2, second element: worked backwards in place, the array comes out as in A1 (R71, R72).
theorem test_in_place_backwards :
    truncateInPlace [2, 1, 0] [0x3EAAAAAB#32, 0x3F7FFFFF#32, 0x7FFFFFFF#32] 4 true
      = [0x3EAAAAB0#32, 0x3F800000#32, 0x80000000#32] := by decide

-- R9: the widths.
theorem test_widths : Config.floatW = 1 + Config.expW + Config.mantW ∧ Config.bitsW = 32 ∧
    Config.maxBits = Config.mantW := by decide

/-! ## Witnesses: every statement with hypotheses has a state and operands that meet them -/

/-- The request T6. -/
def reqT6 : Request := { ctrl := 0b01#2, value := 0x3EAAAAAB#32, data := [], bits := 4#32 }

/-- The same request, with something in the field TRUNC ignores. -/
def reqT6' : Request := { reqT6 with data := [7#32] }

/-- The request A5, whose `bits` is -1. -/
def reqA5 : Request :=
  { ctrl := 0b10#2, value := 0#32, data := [0x3EAAAAAB#32, 0x3F800000#32], bits := 0xFFFFFFFF#32 }

/-- A block in the middle of its work: one response delivered, two requests presented, a bound of 2. -/
def busy : State :=
  { pending := [reqT6, reqA5], resetAsserted := false, maxArrayLen := some 2,
    served := [{ request := .truncZ 0x3EAAAAAB#32 4#32, response := .ok (.word 0x3EAAAAA0#32) }] }

theorem witness_MasksAreTheirNumbers :
    (1 ≤ 1 ∧ 1 ≤ 23) ∧ (1 ≤ 23 ∧ 23 ≤ 23) ∧ (23 ≤ 23 ∧ 23 < 32) ∧ (23 ≤ 31 ∧ 31 < 32) ∧
    keepMask 23 = 0xFF800000#32 ∧ keepMask 1 = 0xFFFFFFFE#32 := by decide

theorem witness_CtrlSelectsOneOperation :
    (encode (.truncZ 1#32 2#32)).ctrl = 0b00#2 ∧ (encode (.truncR 1#32 2#32)).ctrl = 0b01#2 ∧
    (encode (.truncaZ [] 2#32)).ctrl = 0b10#2 ∧ (encode (.truncaR [] 2#32)).ctrl = 0b11#2 := by decide

theorem witness_PackedWordRoundTrip :
    31 < 32 ∧ decodeTableWord (encodedBits (.truncaR [1#32, 2#32] 3#32) + 31)
      (encodeWord (.truncaR [1#32, 2#32] 3#32)) = some (.truncaR [1#32, 2#32] 3#32) := by decide

theorem witness_PackedWordIsCanonical :
    decodeTableWord 66 (2 ^ 66 - 2) = some (.truncaZ [0xFFFFFFFF#32] 0xFFFFFFFF#32) ∧
    2 ^ 66 - 2 < 2 ^ 66 ∧ 66 = encodedBits (.truncaZ [0xFFFFFFFF#32] 0xFFFFFFFF#32) := by decide

theorem witness_UnusedOperandIsIgnored :
    reqT6.ctrl = reqT6'.ctrl ∧ reqT6.bits = reqT6'.bits ∧
    (reqT6.isArray = false → reqT6.value = reqT6'.value) ∧
    (reqT6.isArray = true → reqT6.data = reqT6'.data) ∧ reqT6 ≠ reqT6' := by decide

theorem witness_StepRunsTheDecodedRequest :
    busy.resetAsserted = false ∧ busy.pending = reqT6 :: [reqA5] := by decide

theorem witness_PackedWordRunsNext :
    decodeTableWord 8 0b01 = some (.truncR 0#32 0#32) ∧
    (nextOf (step (busy.withFetchWord 8 0b01))).isSome = true := by decide

theorem witness_IdleBlockWaits :
    State.reset.resetAsserted = false ∧ State.reset.pending = [] := by decide

theorem witness_ResetDropsRequestsInFlight : ∃ t, step busy.assertReset = .next t :=
  ⟨busy.assertReset.takeReset, eq_next_of_nextOf (by decide)⟩

theorem witness_ResetIsUnobservable :
    ∃ t u, step busy.assertReset = .next t ∧
      step { busy with pending := [reqT6], resetAsserted := false } = .next u :=
  ⟨busy.assertReset.takeReset,
    State.deliver { busy with pending := [] } (decode reqT6) (.ok (.word 0x3EAAAAB0#32)),
    eq_next_of_nextOf (by decide), eq_next_of_nextOf (by decide)⟩

theorem witness_ExecDeliversOneResponseOnly :
    (nextOf (exec (.truncZ 0x3EAAAAAB#32 4#32) busy)).isSome = true ∧
    (nextOf (exec (.truncR 0x3EAAAAAB#32 24#32) busy)).isSome = true ∧
    (nextOf (exec (.truncaZ [1#32, 2#32] 23#32) busy)).isSome = true ∧
    (nextOf (exec (.truncaR [] 0#32) busy)).isSome = true := by decide

theorem witness_TruncZClearsExactlyTheLowBits : Legal 0#32 ∧ Legal 23#32 := by decide

-- both clauses, at the edges: past the midpoint; at it; below 2^32 or not (T12, T11, T27)
theorem witness_TruncRRoundsPastTheMidpoint :
    Legal 4#32 ∧
    (0x3F800000 + 2 ^ 4 < 2 ^ 32 ∧ 2 ^ 4 < 2 * 9 ∧ 0x3F800009 % 2 ^ 4 = 9) ∧
    (¬2 ^ 4 < 2 * 8 ∧ 0x3F800008 % 2 ^ 4 = 8) ∧
    (¬0xFFFFFFF0 + 2 ^ 4 < 2 ^ 32 ∧ 0xFFFFFFFF % 2 ^ 4 = 15) := by decide

theorem witness_TruncaZWorksEveryElement :
    Legal 23#32 ∧ lengthAllowed busy.maxArrayLen [1#32, 2#32].length = true ∧
    lengthAllowed none [1#32, 2#32].length = true ∧ [1#32, 2#32][1]? = some 2#32 := by decide

theorem witness_TruncaRWorksEveryElement :
    Legal 0#32 ∧ lengthAllowed (some 0) ([] : List Word).length = true ∧
    lengthAllowed (some 1) [1#32].length = true ∧ [1#32][0]? = some 1#32 := by decide

theorem witness_InvalidArgumentExactlyOutsideTheRange :
    ¬Legal (Instr.truncaR [] (BitVec.ofInt 32 (-1))).bits ∧ ¬Legal (Instr.truncZ 1#32 24#32).bits ∧
    Legal (Instr.truncaR [1#32] 23#32).bits ∧
    (nextOf (exec (.truncaR [1#32] 23#32) busy)).isSome = true := by decide

theorem witness_StatusAndResultAgree :
    exec (.truncR 0x3EAAAAAB#32 4#32) busy
      = .next (busy.deliver (.truncR 0x3EAAAAAB#32 4#32) (.ok (.word 0x3EAAAAB0#32))) ∧
    statusOf (.ok (.word 0x3EAAAAB0#32)) = 0#1 ∧
    exec (.truncaZ [1#32] 24#32) busy
      = .next (busy.deliver (.truncaZ [1#32] 24#32) (.error .invalidArgument)) ∧
    statusOf (.error .invalidArgument) = 1#1 :=
  ⟨eq_next_of_nextOf (by decide), rfl, eq_next_of_nextOf (by decide), rfl⟩

theorem witness_OnlyOverlongArraysAreRefused :
    Legal (Instr.truncaZ [1#32, 2#32, 3#32] 4#32).bits ∧ busy.maxArrayLen = some 2 ∧
    2 < (Instr.truncaZ [1#32, 2#32, 3#32] 4#32).data.length ∧
    nextOf (exec (.truncaZ [1#32, 2#32, 3#32] 4#32) busy) = none := by decide

theorem witness_TruncateCoreIsRule48 :
    ((-1 : Int) < 0 ∨ (23 : Int) < -1) ∧ ((24 : Int) < 0 ∨ (23 : Int) < 24) ∧
    ((1 : Int) ≤ 1 ∧ (1 : Int) ≤ 23) ∧ ((1 : Int) ≤ 23 ∧ (23 : Int) ≤ 23) := by decide

theorem witness_TruncateCoreIsTheArithmetic : Legal 0#32 ∧ Legal 23#32 ∧ ¬Legal 24#32 := by decide

-- T27, T29, T31: the guard fails at b = 22 and 23 (also for negative infinity); T26: it holds
theorem witness_GuardFailsExactlyOnAllOnes :
    roundGuard 0xFFFFFFFF#32 22 = false ∧ roundGuard 0xFFFFFFFF#32 23 = false ∧
    roundGuard 0xFF800000#32 23 = false ∧ roundGuard 0xFFFFFFFF#32 1 = false ∧
    roundGuard 0xFFFFFFEF#32 4 = true := by decide

theorem witness_RoundUpNeverWraps :
    roundGuard 0xFFFFFFEF#32 4 = true ∧ roundGuard 0x7FFFFFFF#32 23 = true := by decide

theorem witness_RoundedResultIsNearest :
    roundGuard 0x3F800008#32 4 = true ∧ 2 ^ 4 ∣ 0x3F800010 ∧
    (0x3F800008#32 : Word).toNat % 2 ^ 4 = 2 ^ (4 - 1) := by decide

theorem witness_RoundingIsSymmetricAboutZero :
    (0x3EAAAAAB#32 : Word).getLsbD 31 = false ∧
    truncateCore 0x3EAAAAAB#32 4 true = .ok 0x3EAAAAB0#32 ∧
    (0x3EAAAAB0#32 : Word).getLsbD 31 = false := by decide

-- T19 (b = 23, no kept mantissa bit) and T25 (the carry reaches the sign)
theorem witness_CarryReachesExponentAndSign :
    (∀ k : Fin 23, 23 ≤ k.val → (0x3F7FFFFF#32 : Word).getLsbD k = true) ∧
    2 ^ 23 < 2 * ((0x3F7FFFFF#32 : Word).toNat % 2 ^ 23) ∧
    (0x3F7FFFFF#32 : Word).toNat / 2 ^ 23 ≠ 0x1FF ∧
    (∀ k : Fin 23, 4 ≤ k.val → (0x7FFFFFFF#32 : Word).getLsbD k = true) ∧
    2 ^ 4 < 2 * ((0x7FFFFFFF#32 : Word).toNat % 2 ^ 4) ∧
    (0x7FFFFFFF#32 : Word).toNat / 2 ^ 23 ≠ 0x1FF := by decide

theorem witness_ResultInvariants :
    roundGuard 0x3F800009#32 23 = true ∧ roundGuard 0xFFFFFFFF#32 1 = false ∧ 0 ≤ 23 := by decide

theorem witness_ZerosAndInfinitiesAreUnchanged : Legal 0#32 ∧ Legal 23#32 := by decide

theorem witness_RoundingErrorBound :
    classify 0x3F7FFFFF#32 = .normal ∧
    classify (truncateLegal 0x3F7FFFFF#32 23 true) ≠ .infinity := by decide

theorem witness_MaskingErrorBound : classify 0x00800001#32 = .normal ∧ 23 ≤ 23 := by decide

theorem witness_TruncationIsIdempotent :
    truncateCore 0xFFFFFFFF#32 4 true = .ok 0xFFFFFFF0#32 ∧
    truncateCore 0x3EAAAAAB#32 23 false = .ok 0x3E800000#32 := by decide

theorem witness_MaskingComposes :
    (4 : Int) ≤ 8 ∧ truncateCore 0x3EAAAAAB#32 4 false = .ok 0x3EAAAAA0#32 ∧
    truncateCore 0x3EAAAAAB#32 8 false = .ok 0x3EAAAA00#32 := by decide

theorem witness_ArrayAgreesWithScalar :
    (0 : Int) ≤ 0 ∧ (23 : Int) ≤ 23 ∧ [1#32][0]? = some 1#32 := by decide

theorem witness_InPlaceOrderDoesNotMatter :
    [1, 0].Perm (List.range [1#32, 9#32].length) ∧
    truncateArrayCore [1#32, 9#32] 4 true = .ok [0#32, 16#32] := by decide

theorem witness_EveryStepKeepsResponsesSound :
    ServedSound busy ∧ (nextOf (step busy)).isSome = true := by decide

theorem witness_DeliveredResponsesStay : (nextOf (step busy)).isSome = true := by decide

theorem witness_AllowedRunsNeverStop :
    PendingAllowed busy ∧ (nextOf (step busy)).isSome = true := by decide

theorem witness_RunAnswersEveryRequest :
    busy.resetAsserted = false ∧ PendingAllowed busy := by decide

theorem witness_OrderOfWorkDoesNotMatter :
    busy.resetAsserted = false ∧ PendingAllowed busy ∧ [reqA5, reqT6].Perm busy.pending := by decide

theorem witness_ResponseDependsOnRequestAlone :
    ∃ t, busy.resetAsserted = false ∧ (State.present { State.reset with maxArrayLen := some 2 } reqT6).resetAsserted = false ∧
      busy.maxArrayLen = (State.present { State.reset with maxArrayLen := some 2 } reqT6).maxArrayLen ∧
      busy.pending = reqT6 :: [reqA5] ∧
      (State.present { State.reset with maxArrayLen := some 2 } reqT6).pending = reqT6 :: [] ∧
      step busy = .next t :=
  ⟨State.deliver { busy with pending := [reqA5] } (decode reqT6) (.ok (.word 0x3EAAAAB0#32)),
    rfl, rfl, rfl, rfl, rfl, eq_next_of_nextOf (by decide)⟩

theorem witness_ErrorDoesNotDisturbTheNextRequest :
    ∃ u, busy.resetAsserted = false ∧ ¬Legal reqA5.bits ∧
      step { busy with pending := reqT6 :: [reqA5] } = .next u :=
  ⟨State.deliver { busy with pending := [reqA5] } (decode reqT6) (.ok (.word 0x3EAAAAB0#32)),
    rfl, by decide, eq_next_of_nextOf (by decide)⟩

end Sys2Proof.Tests
end

