-- ==== Sys2Proof/Proofs/Masks.lean ====
section
/-! PROOFS. Sys2Proof/Proofs/Masks.lean: the bits of keepMask, and R26 and R27 of 10_state.md. -/

namespace Sys2Proof.Machine

theorem getLsbD_keepMask {n : Nat} (h : n < 32) (k : Nat) :
    (keepMask n).getLsbD k = (decide (k < 32) && decide (n ≤ k)) := by
  rw [keepMask, BitVec.getLsbD_not, getLsbD_dropMask h, ← decide_not]
  simp only [Nat.not_lt]

/-- Settles O2: each mask has its number for `n < 32`, and for `n ≤ 23` the bits 31:23 all lie among
those keepMask sets. -/
theorem masksAreTheirNumbers : Obligations.MasksAreTheirNumbers := by
  intro n _ hn
  have h32 : n < 32 := by omega
  refine ⟨dropMask_toNat h32, keepMask_toNat h32, roundThreshold_toNat h32.le,
    increment_toNat h32, fun k hk hk32 => ?_⟩
  have hnk : n ≤ k := hn.trans hk
  simp [getLsbD_keepMask h32, hk32, hnk]

end Sys2Proof.Machine
end

