-- ==== Sys2Proof/Proofs/Encoding.lean ====
section
/-! PROOFS. Sys2Proof/Proofs/Encoding.lean: the opcode map and the field it does not read (R41 and R43 of
30_encoding.md). -/

namespace Sys2Proof

/-! ## The opcode map, one equation per value of `ctrl` -/

/-- A 2-bit field has no fifth value. -/
theorem ctrl_cases (c : BitVec 2) : c = 0b00#2 ∨ c = 0b01#2 ∨ c = 0b10#2 ∨ c = 0b11#2 := by
  revert c; decide

theorem decode_of_ctrl_00 {q : Request} (h : q.ctrl = 0b00#2) :
    decode q = .truncZ q.value q.bits := by
  simp [decode, Request.isArray, Request.isRound, h]

theorem decode_of_ctrl_01 {q : Request} (h : q.ctrl = 0b01#2) :
    decode q = .truncR q.value q.bits := by
  simp [decode, Request.isArray, Request.isRound, h]

theorem decode_of_ctrl_10 {q : Request} (h : q.ctrl = 0b10#2) :
    decode q = .truncaZ q.data q.bits := by
  simp [decode, Request.isArray, Request.isRound, h]

theorem decode_of_ctrl_11 {q : Request} (h : q.ctrl = 0b11#2) :
    decode q = .truncaR q.data q.bits := by
  simp [decode, Request.isArray, Request.isRound, h]

/-- Settles O3: the four equations of the opcode map, and the four values of `ctrl`. -/
theorem ctrlSelectsOneOperation : Obligations.CtrlSelectsOneOperation := fun q =>
  ⟨decode_of_ctrl_00, decode_of_ctrl_01, decode_of_ctrl_10, decode_of_ctrl_11, ctrl_cases q.ctrl⟩

/-! ## The unused field -/

/-- Decode reads `ctrl`, `bits` and the one operand field that `ctrl[1]` selects. -/
theorem decode_eq_of_used_fields_eq {q q' : Request} (hctrl : q.ctrl = q'.ctrl)
    (hbits : q.bits = q'.bits) (hvalue : q.isArray = false → q.value = q'.value)
    (hdata : q.isArray = true → q.data = q'.data) : decode q = decode q' := by
  rcases ctrl_cases q.ctrl with h | h | h | h
  · rw [decode_of_ctrl_00 h, decode_of_ctrl_00 (hctrl ▸ h), hbits,
      hvalue (by simp [Request.isArray, h])]
  · rw [decode_of_ctrl_01 h, decode_of_ctrl_01 (hctrl ▸ h), hbits,
      hvalue (by simp [Request.isArray, h])]
  · rw [decode_of_ctrl_10 h, decode_of_ctrl_10 (hctrl ▸ h), hbits,
      hdata (by simp [Request.isArray, h])]
  · rw [decode_of_ctrl_11 h, decode_of_ctrl_11 (hctrl ▸ h), hbits,
      hdata (by simp [Request.isArray, h])]

end Sys2Proof

namespace Sys2Proof.Machine

/-- An asserted reset is taken before any request is looked at. -/
theorem step_of_resetAsserted {s : State} (hr : s.resetAsserted = true) :
    step s = .next s.takeReset := by
  simp [step, hr]

/-- With no reset in the way the first presented request is the one that runs. -/
theorem step_of_pending_cons {s : State} {q : Request} {rest : List Request}
    (hr : s.resetAsserted = false) (hp : s.pending = q :: rest) :
    step s = exec (decode q) { s with pending := rest } := by
  simp [step, hr, takeRequest_cons s q rest hp]

/-- Settles O7: a reset drops either request, and without one the step runs the decoded operation,
which is the same for both. -/
theorem unusedOperandIsIgnored : Obligations.UnusedOperandIsIgnored := by
  intro s q q' rest hctrl hbits hvalue hdata
  cases hr : s.resetAsserted with
  | true => exact (step_of_resetAsserted rfl).trans (step_of_resetAsserted rfl).symm
  | false =>
    have hdecode : decode q = decode q' := decode_eq_of_used_fields_eq hctrl hbits hvalue hdata
    rw [step_of_pending_cons (q := q) rfl rfl, step_of_pending_cons (q := q') rfl rfl, hdecode]

end Sys2Proof.Machine
end

