-- ==== Sys2Proof/Proofs/Scalar.lean ====
section
/-! PROOFS. Sys2Proof/Proofs/Scalar.lean: what the scalar core and the two scalar operations answer on
legal `bits`, as equations, and the core as arithmetic (R48 to R54 of 40_truncate.md). -/

namespace Sys2Proof.Machine

open Sys2Proof.Spec

/-! ## Legal `bits` as a number -/

/-- The 32-bit two's complement reading is in [0, 23] only where it is the unsigned one (R24). -/
theorem sext32_eq_toNat_of_legal {bits : Word} (h : Legal bits) : sext32 bits = bits.toNat := by
  have hnonneg : 0 ≤ sext32 bits := h.1
  rw [sext32, BitVec.toInt_eq_toNat_cond] at hnonneg ⊢
  split at hnonneg
  · next hsmall => exact if_pos hsmall
  · omega

theorem toNat_le_of_legal {bits : Word} (h : Legal bits) : bits.toNat ≤ 23 := by
  have hle : sext32 bits ≤ 23 := h.2
  rw [sext32_eq_toNat_of_legal h] at hle
  omega

/-! ## The core on `b` in range -/

@[simp] theorem truncateLegal_zero (v : Word) (round : Bool) : truncateLegal v 0 round = v := rfl

/-- R48 from the masks on, with the two conditions of the round-up (R52, R54). -/
theorem truncateLegal_of_pos (v : Word) {n : Nat} (hn : 1 ≤ n) (round : Bool) :
    truncateLegal v n round =
      if round = true ∧ masked v n < keepMask n ∧ roundThreshold n < dropped v n
      then masked v n + increment n else masked v n := by
  have h0 : n ≠ 0 := by omega
  simp [truncateLegal, roundsUp, roundGuard, h0]

theorem masked_zero (v : Word) : masked v 0 = v :=
  BitVec.eq_of_toNat_eq (by simp [masked_toNat, Nat.mod_one])

/-- Without rounding the result is the masked pattern, at `n = 0` too (R51). -/
theorem truncateLegal_false (v : Word) (n : Nat) : truncateLegal v n false = masked v n := by
  rcases Nat.eq_zero_or_pos n with rfl | hn
  · exact (masked_zero v).symm
  · simp [truncateLegal_of_pos v hn]

/-- Identity at `b = 0`, where no mask is computed (R50). -/
theorem truncateCore_zero (v : Word) (round : Bool) : truncateCore v 0 round = .ok v :=
  (truncateCore_eq_ok_iff ..).mpr ⟨by omega, truncateLegal_zero v round⟩

theorem truncateCore_of_legal {bits : Word} (h : Legal bits) (v : Word) (round : Bool) :
    truncateCore v (sext32 bits) round = .ok (truncateLegal v bits.toNat round) :=
  (truncateCore_eq_ok_iff ..).mpr ⟨h, by rw [sext32_eq_toNat_of_legal h, Int.toNat_natCast]⟩

/-! ## The two operations on legal `bits` -/

theorem answerScalar_of_legal {bits : Word} (h : Legal bits) (i : Instr) (v : Word) (round : Bool)
    (s : State) :
    answerScalar i v bits round s
      = .next (s.deliver i (.ok (.word (truncateLegal v bits.toNat round)))) := by
  rw [answerScalar, truncateCore_of_legal h]

theorem exec_truncZ_of_legal {bits : Word} (h : Legal bits) (v : Word) (s : State) :
    exec (.truncZ v bits) s
      = .next (s.deliver (.truncZ v bits) (.ok (.word (truncateLegal v bits.toNat false)))) :=
  answerScalar_of_legal h ..

theorem exec_truncR_of_legal {bits : Word} (h : Legal bits) (v : Word) (s : State) :
    exec (.truncR v bits) s
      = .next (s.deliver (.truncR v bits) (.ok (.word (truncateLegal v bits.toNat true)))) :=
  answerScalar_of_legal h ..

/-! ## The round-up in arithmetic -/

/-- The guard of R52 holds exactly when the next multiple of 2^n is below 2^32. -/
theorem roundGuard_iff (v : Word) {n : Nat} (hn : n < 32) :
    roundGuard v n = true ↔ v.toNat - v.toNat % 2 ^ n + 2 ^ n < 2 ^ 32 := by
  have hpow : 2 ^ n < 2 ^ 32 := Nat.pow_lt_pow_right (by omega) hn
  rw [roundGuard, decide_eq_true_iff, BitVec.lt_def, masked_toNat v hn, keepMask_toNat hn]
  omega

/-- Past the threshold 2^(n-1) is past half of 2^n, which needs no predecessor of `n` (R54). -/
theorem roundThreshold_lt_dropped_iff (v : Word) {n : Nat} (h1 : 1 ≤ n) (hn : n < 32) :
    roundThreshold n < dropped v n ↔ 2 ^ n < 2 * (v.toNat % 2 ^ n) := by
  have htwice : 2 * 2 ^ (n - 1) = 2 ^ n := mul_pow_sub_one (by omega) 2
  rw [BitVec.lt_def, roundThreshold_toNat hn.le, dropped_toNat v hn]
  omega

/-- The sum of the round-up is exact where the guard holds (R53). -/
theorem masked_add_increment_toNat {v : Word} {n : Nat} (hn : n < 32)
    (hg : roundGuard v n = true) :
    (masked v n + increment n).toNat = v.toNat - v.toNat % 2 ^ n + 2 ^ n := by
  rw [BitVec.toNat_add, masked_toNat v hn, increment_toNat hn,
    Nat.mod_eq_of_lt ((roundGuard_iff v hn).mp hg)]

/-- The masks compute the arithmetic reading of R48. -/
theorem truncateLegal_toNat (v : Word) {n : Nat} (hn : n < 32) (round : Bool) :
    (truncateLegal v n round).toNat = truncNat v.toNat n round := by
  rcases Nat.eq_zero_or_pos n with rfl | h1
  · simp [truncNat, Nat.mod_one]
  · have hcond : (masked v n < keepMask n ∧ roundThreshold n < dropped v n) ↔
        v.toNat - v.toNat % 2 ^ n + 2 ^ n < 2 ^ 32 ∧ 2 ^ n < 2 * (v.toNat % 2 ^ n) :=
      and_congr (decide_eq_true_iff.symm.trans (roundGuard_iff v hn))
        (roundThreshold_lt_dropped_iff v h1 hn)
    simp only [truncateLegal_of_pos v h1, truncNat, hcond]
    split
    · next h => exact masked_add_increment_toNat hn ((roundGuard_iff v hn).mpr h.2.1)
    · exact masked_toNat v hn

end Sys2Proof.Machine
end

