-- ==== Sys2Proof/Proofs/Truncate.lean ====
section
/-! PROOFS. Sys2Proof/Proofs/Truncate.lean: the statements about R48, R50, R51, R54, R55 and R65 of
40_truncate.md. -/

namespace Sys2Proof.Machine

open Sys2Proof.Spec

/-- Settles O17: without rounding the answer is the masked pattern, whose bits are known. -/
theorem truncZClearsExactlyTheLowBits : Obligations.TruncZClearsExactlyTheLowBits := by
  intro value bits s hlegal
  have hn : bits.toNat < 32 := (toNat_le_of_legal hlegal).trans_lt (by decide)
  refine ⟨_, exec_truncZ_of_legal hlegal value s, fun k _ => ?_⟩
  rw [truncateLegal_false, getLsbD_masked value hn]

/-- Settles O18: the two clauses are the two branches of the arithmetic reading with rounding on. -/
theorem truncRRoundsPastTheMidpoint : Obligations.TruncRRoundsPastTheMidpoint := by
  intro value bits s hlegal
  have hn : bits.toNat < 32 := (toNat_le_of_legal hlegal).trans_lt (by decide)
  refine ⟨_, exec_truncR_of_legal hlegal value s, ?_⟩
  rintro d k rfl rfl
  rw [truncateLegal_toNat value hn, truncNat]
  exact ⟨fun hfits hpast => if_pos ⟨rfl, hfits, hpast⟩, fun h => if_neg fun hup => h hup.2⟩

/-- Settles O25: legal `bits` reach the arithmetic of the core, all others its one error. -/
theorem truncateCoreIsTheArithmetic : Obligations.TruncateCoreIsTheArithmetic := by
  intro v bits round
  refine ⟨fun hlegal => ?_, (truncateCore_eq_error_iff ..).mpr⟩
  have hn : bits.toNat < 32 := (toNat_le_of_legal hlegal).trans_lt (by decide)
  exact ⟨_, truncateCore_of_legal hlegal v round, truncateLegal_toNat v hn round⟩

/-! ## Nearest multiple (R55) -/

/-- No multiple of `p` lies strictly between the one below `v` and the next. -/
theorem multiple_le_or_next_le {p m : Nat} (h : p ∣ m) (v : Nat) :
    m ≤ v - v % p ∨ v - v % p + p ≤ m := by
  obtain ⟨c, rfl⟩ := h
  have hbelow : v - v % p = p * (v / p) := by have := Nat.div_add_mod v p; omega
  rw [hbelow]
  rcases Nat.lt_or_ge (v / p) c with hc | hc
  · exact .inr (Nat.mul_le_mul_left p hc)
  · exact .inl (Nat.mul_le_mul_left p hc)

theorem dvd_truncNat (v n : Nat) (round : Bool) : 2 ^ n ∣ truncNat v n round := by
  have hbelow : 2 ^ n ∣ v - v % 2 ^ n := Nat.dvd_sub_mod v
  rw [truncNat]
  split
  · exact dvd_add hbelow dvd_rfl
  · exact hbelow

/-- Where the next multiple of 2^n exists below 2^32, rounding gives the nearest multiple, the smaller
of two equally near ones (R55). -/
theorem truncNat_nearest {v n m : Nat} (hfits : v - v % 2 ^ n + 2 ^ n < 2 ^ 32) (hm : 2 ^ n ∣ m) :
    |(truncNat v n true : Int) - v| ≤ |(m : Int) - v| ∧
    (|(truncNat v n true : Int) - v| = |(m : Int) - v| → truncNat v n true ≤ m) := by
  have hmod : v % 2 ^ n < 2 ^ n := Nat.mod_lt v (Nat.two_pow_pos n)
  have hle : v % 2 ^ n ≤ v := Nat.mod_le v _
  simp only [truncNat, hfits, true_and, abs_eq_max_neg]
  rcases multiple_le_or_next_le hm v with hbelow | habove
  · split <;> omega
  · split <;> omega

/-- An exact tie is not past the midpoint (R54). -/
theorem truncateLegal_of_tie {v : Word} {n : Nat} (h1 : 1 ≤ n) (hn : n < 32)
    (htie : v.toNat % 2 ^ n = 2 ^ (n - 1)) (round : Bool) : truncateLegal v n round = masked v n := by
  have hnot : ¬roundThreshold n < dropped v n := by
    rw [BitVec.lt_def, roundThreshold_toNat hn.le, dropped_toNat v hn, htie]
    exact lt_irrefl _
  rw [truncateLegal_of_pos v h1, if_neg fun h => hnot h.2.2]

/-- Settles O29: the arithmetic reading is the nearest multiple, and a tie keeps the masked pattern. -/
theorem roundedResultIsNearest : Obligations.RoundedResultIsNearest := by
  intro v n m h1 h23 hguard hm
  have hn : n < 32 := by omega
  obtain ⟨hnear, hsmaller⟩ := truncNat_nearest ((roundGuard_iff v hn).mp hguard) hm
  rw [truncateLegal_toNat v hn]
  exact ⟨dvd_truncNat .., hnear, hsmaller, fun htie => truncateLegal_of_tie h1 hn htie true⟩

/-! ## R48 line by line, and R50 -/

/-- Settles O24: each range of `b` is one line of the rule. -/
theorem truncateCoreIsRule48 : Obligations.TruncateCoreIsRule48 := by
  intro v b round
  refine ⟨fun hout => ?_, ?_, ?_⟩
  · exact (truncateCore_eq_error_iff ..).mpr (by omega)
  · rintro rfl
    exact truncateCore_zero v round
  · rintro h1 h23 _ _ _ _ _ rfl rfl rfl rfl rfl
    exact (truncateCore_eq_ok_iff ..).mpr ⟨by omega, truncateLegal_of_pos v (by omega) round⟩

/-- Settles O26: `bits = 0` is legal and the core returns its pattern there. -/
theorem zeroBitsIsTheIdentity : Obligations.ZeroBitsIsTheIdentity := by
  intro v round s
  have hlegal : Legal 0#32 := by decide
  exact ⟨truncateCore_zero v round, exec_truncZ_of_legal hlegal v s,
    exec_truncR_of_legal hlegal v s⟩

end Sys2Proof.Machine
end

