-- ==== Sys2Proof/Proofs/Array.lean ====
section
/-! PROOFS. Sys2Proof/Proofs/Array.lean: what the array core and the two array operations answer on legal
`bits`, as equations, and their agreement with the scalar operations (R68, R73 and R74 of
41_truncate_array.md). -/

namespace Sys2Proof.Machine

open Sys2Proof.Spec

/-! ## The array core and the two operations on legal `bits` -/

theorem truncateArrayCore_of_legal {bits : Word} (h : Legal bits) (data : List Word) (round : Bool) :
    truncateArrayCore data (sext32 bits) round
      = .ok (data.map fun v => truncateLegal v bits.toNat round) :=
  (truncateArrayCore_eq_ok_iff ..).mpr ⟨h, by rw [sext32_eq_toNat_of_legal h, Int.toNat_natCast]⟩

/-- Past the range check an allowed length is the only other condition (R68, decision D5). -/
theorem answerArray_of_legal {bits : Word} (h : Legal bits) {data : List Word} {s : State}
    (hlen : lengthAllowed s.maxArrayLen data.length = true) (i : Instr) (round : Bool) :
    answerArray i data bits round s
      = .next (s.deliver i (.ok (.words (data.map fun v => truncateLegal v bits.toNat round)))) := by
  rw [answerArray, truncateArrayCore_of_legal h]
  exact if_pos hlen

theorem exec_truncaZ_of_legal {bits : Word} (h : Legal bits) {data : List Word} {s : State}
    (hlen : lengthAllowed s.maxArrayLen data.length = true) :
    exec (.truncaZ data bits) s
      = .next (s.deliver (.truncaZ data bits)
          (.ok (.words (data.map fun v => truncateLegal v bits.toNat false)))) :=
  answerArray_of_legal h hlen ..

theorem exec_truncaR_of_legal {bits : Word} (h : Legal bits) {data : List Word} {s : State}
    (hlen : lengthAllowed s.maxArrayLen data.length = true) :
    exec (.truncaR data bits) s
      = .next (s.deliver (.truncaR data bits)
          (.ok (.words (data.map fun v => truncateLegal v bits.toNat true)))) :=
  answerArray_of_legal h hlen ..

/-! ## Element by element as the scalar form -/

/-- Settles O19: the array answer maps over the elements the word that TRUNC.Z answers. -/
theorem truncaZWorksEveryElement : Obligations.TruncaZWorksEveryElement := by
  intro data bits s hlegal hlen
  refine ⟨_, exec_truncaZ_of_legal hlegal hlen, List.length_map _, fun k v u hk => ?_⟩
  refine ⟨_, ?_, exec_truncZ_of_legal hlegal v u⟩
  rw [List.getElem?_map, hk, Option.map_some]

/-- Settles O20: the array answer maps over the elements the word that TRUNC.R answers. -/
theorem truncaRWorksEveryElement : Obligations.TruncaRWorksEveryElement := by
  intro data bits s hlegal hlen
  refine ⟨_, exec_truncaR_of_legal hlegal hlen, List.length_map _, fun k v u hk => ?_⟩
  refine ⟨_, ?_, exec_truncR_of_legal hlegal v u⟩
  rw [List.getElem?_map, hk, Option.map_some]

end Sys2Proof.Machine
end

