-- ==== Sys2Proof/Proofs/Exceptions.lean ====
section
/-! PROOFS. Sys2Proof/Proofs/Exceptions.lean: what the operations answer on illegal `bits`, and that on
legal `bits` they deliver no error (R76 of 60_exceptions.md, R70 of 41_truncate_array.md). -/

namespace Sys2Proof.Machine

open Sys2Proof.Spec

/-! ## Illegal `bits`: the error, before any other step -/

theorem answerScalar_of_not_legal {bits : Word} (h : ¬Legal bits) (i : Instr) (v : Word)
    (round : Bool) (s : State) :
    answerScalar i v bits round s = .next (s.deliver i (.error .invalidArgument)) := by
  rw [answerScalar, (truncateCore_eq_error_iff _ _ _ .invalidArgument).mpr h]
  rfl

/-- No hypothesis on the length: the range check comes before the length limit (R70, log 7). -/
theorem answerArray_of_not_legal {bits : Word} (h : ¬Legal bits) (i : Instr) (data : List Word)
    (round : Bool) (s : State) :
    answerArray i data bits round s = .next (s.deliver i (.error .invalidArgument)) := by
  rw [answerArray, (truncateArrayCore_eq_error_iff _ _ _ .invalidArgument).mpr h]
  rfl

theorem exec_of_not_legal {i : Instr} (h : ¬Legal i.bits) (s : State) :
    exec i s = .next (s.deliver i (.error .invalidArgument)) := by
  cases i with
  | truncZ value bits => exact answerScalar_of_not_legal h ..
  | truncR value bits => exact answerScalar_of_not_legal h ..
  | truncaZ data bits => exact answerArray_of_not_legal h ..
  | truncaR data bits => exact answerArray_of_not_legal h ..

/-! ## Legal `bits`: a result, or for an overlong sequence a refusal -/

/-- Past the range check a sequence longer than MAX_ARRAY_LEN is refused (decision D5, log 6). -/
theorem answerArray_of_legal_of_overlong {bits : Word} (h : Legal bits) {data : List Word}
    {s : State} (hlen : lengthAllowed s.maxArrayLen data.length = false) (i : Instr)
    (round : Bool) :
    answerArray i data bits round s = .refused (.arrayTooLong data.length) := by
  rw [answerArray, truncateArrayCore_of_legal h]
  exact if_neg (Bool.eq_false_iff.mp hlen)

theorem answerArray_next_of_legal {i : Instr} {data : List Word} {bits : Word} {round : Bool}
    {s t : State} (h : Legal bits) (hnext : answerArray i data bits round s = .next t) :
    ∃ r, t = s.deliver i (.ok r) := by
  cases hlen : lengthAllowed s.maxArrayLen data.length with
  | true => exact ⟨_, Host.Outcome.next.inj (hnext.symm.trans (answerArray_of_legal h hlen ..))⟩
  | false => cases hnext.symm.trans (answerArray_of_legal_of_overlong h hlen ..)

theorem exec_next_of_legal {i : Instr} {s t : State} (h : Legal i.bits)
    (hnext : exec i s = .next t) : ∃ r, t = s.deliver i (.ok r) := by
  cases i with
  | truncZ value bits =>
    exact ⟨_, Host.Outcome.next.inj (hnext.symm.trans (exec_truncZ_of_legal h value s))⟩
  | truncR value bits =>
    exact ⟨_, Host.Outcome.next.inj (hnext.symm.trans (exec_truncR_of_legal h value s))⟩
  | truncaZ data bits => exact answerArray_next_of_legal h hnext
  | truncaR data bits => exact answerArray_next_of_legal h hnext

/-- Settles O21: illegal `bits` end every operation in the error, and from legal `bits` the only next
states are those that deliver a result. -/
theorem invalidArgumentExactlyOutsideTheRange :
    Obligations.InvalidArgumentExactlyOutsideTheRange := by
  refine ⟨fun i s hillegal => exec_of_not_legal hillegal s, fun i s t hlegal hnext => ?_,
    by decide, by decide, by decide, by decide⟩
  obtain ⟨r, rfl⟩ := exec_next_of_legal hlegal hnext
  exact ⟨r, deliver_served ..⟩

end Sys2Proof.Machine
end

