-- ==== Sys2Proof/Proofs/Packing.lean ====
section
/-! PROOFS. Sys2Proof/Proofs/Packing.lean: the packed word of a request (log 8) as a number with fields,
and decode of encode (R38 and R41 of 30_encoding.md). -/

namespace Sys2Proof

/-! ## The request of an operation -/

@[simp] theorem isArray_encode_truncZ (value bits : Word) :
    (encode (.truncZ value bits)).isArray = false := by simp [encode, Request.isArray]
@[simp] theorem isArray_encode_truncR (value bits : Word) :
    (encode (.truncR value bits)).isArray = false := by simp [encode, Request.isArray]
@[simp] theorem isArray_encode_truncaZ (data : List Word) (bits : Word) :
    (encode (.truncaZ data bits)).isArray = true := by simp [encode, Request.isArray]
@[simp] theorem isArray_encode_truncaR (data : List Word) (bits : Word) :
    (encode (.truncaR data bits)).isArray = true := by simp [encode, Request.isArray]

/-- The fields of an operation's request stand for the operation (R41). -/
theorem decode_encode (i : Instr) : decode (encode i) = i := by
  cases i with
  | truncZ value bits => exact (Laws.FieldRoundTrip.truncZ value bits).1
  | truncR value bits => exact (Laws.FieldRoundTrip.truncR value bits).1
  | truncaZ data bits => exact (Laws.FieldRoundTrip.truncaZ data bits).1
  | truncaR data bits => exact (Laws.FieldRoundTrip.truncaR data bits).1

/-! ## Sequences of words as one number -/

theorem packWords_lt (ws : List Word) : packWords ws < 2 ^ (32 * ws.length) := by
  induction ws with
  | nil => decide
  | cons w ws ih =>
    have hw := w.isLt
    rw [packWords, List.length_cons, Nat.mul_add, pow_add]
    omega

theorem unpackWords_packWords (ws : List Word) : unpackWords ws.length (packWords ws) = ws := by
  induction ws with
  | nil => rfl
  | cons w ws ih =>
    have hw := w.isLt
    have hhead : BitVec.ofNat 32 (w.toNat + 2 ^ 32 * packWords ws) = w :=
      BitVec.eq_of_toNat_eq (by rw [BitVec.toNat_ofNat]; omega)
    have htail : (w.toNat + 2 ^ 32 * packWords ws) / 2 ^ 32 = packWords ws := by omega
    rw [List.length_cons, packWords, unpackWords, hhead, htail, ih]

theorem length_unpackWords (n w : Nat) : (unpackWords n w).length = n := by
  induction n generalizing w with
  | zero => rfl
  | succ n ih => rw [unpackWords, List.length_cons, ih]

theorem packWords_unpackWords {n w : Nat} (h : w < 2 ^ (32 * n)) :
    packWords (unpackWords n w) = w := by
  induction n generalizing w with
  | zero => simp_all [unpackWords, packWords]
  | succ n ih =>
    have htail : w / 2 ^ 32 < 2 ^ (32 * n) :=
      Nat.div_lt_of_lt_mul (by rwa [← pow_add, Nat.add_comm, ← Nat.mul_succ])
    rw [unpackWords, packWords, ih htail, BitVec.toNat_ofNat]
    omega

/-! ## The fields of a packed request -/

/-- The number above bit 33 of a packed request: the operand field that `ctrl[1]` selects. -/
def Request.operandNumber (q : Request) : Nat := if q.isArray then packWords q.data else q.value.toNat

theorem pack_eq (q : Request) :
    q.pack = q.ctrl.toNat + 2 ^ 2 * q.bits.toNat + 2 ^ 34 * q.operandNumber := rfl

theorem packedBits_of_scalar {q : Request} (h : q.isArray = false) : q.packedBits = 66 := by
  simp [Request.packedBits, h]

theorem packedBits_of_array {q : Request} (h : q.isArray = true) :
    q.packedBits = 34 + 32 * q.data.length := by
  simp [Request.packedBits, h]

theorem operandNumber_of_scalar {q : Request} (h : q.isArray = false) :
    q.operandNumber = q.value.toNat := by
  simp [Request.operandNumber, h]

theorem operandNumber_of_array {q : Request} (h : q.isArray = true) :
    q.operandNumber = packWords q.data := by
  simp [Request.operandNumber, h]

theorem pack_lt (q : Request) : q.pack < 2 ^ q.packedBits := by
  have hctrl := q.ctrl.isLt
  have hbits := q.bits.isLt
  rw [pack_eq]
  cases h : q.isArray with
  | false =>
    have hvalue := q.value.isLt
    rw [packedBits_of_scalar h, operandNumber_of_scalar h]
    omega
  | true =>
    have hdata := packWords_lt q.data
    rw [packedBits_of_array h, operandNumber_of_array h, pow_add]
    omega

section
variable (q : Request)

theorem ctrl_of_pack : BitVec.ofNat 2 q.pack = q.ctrl := by
  have hctrl := q.ctrl.isLt
  refine BitVec.eq_of_toNat_eq ?_
  rw [BitVec.toNat_ofNat, pack_eq]
  omega

theorem bits_of_pack : BitVec.ofNat 32 (q.pack / 2 ^ 2) = q.bits := by
  have hctrl := q.ctrl.isLt
  have hbits := q.bits.isLt
  refine BitVec.eq_of_toNat_eq ?_
  rw [BitVec.toNat_ofNat, pack_eq]
  omega

theorem operandNumber_of_pack : q.pack / 2 ^ 34 = q.operandNumber := by
  have hctrl := q.ctrl.isLt
  have hbits := q.bits.isLt
  rw [pack_eq]
  omega

end

/-! ## The fields that unpacking reads from a number that fits -/

section
variable {nbits w : Nat} (hw : w < 2 ^ nbits)
include hw

theorem ctrl_unpack : (Request.unpack nbits w).ctrl = BitVec.ofNat 2 w := by
  rw [Request.unpack, Nat.mod_eq_of_lt hw]

theorem bits_unpack : (Request.unpack nbits w).bits = BitVec.ofNat 32 (w / 2 ^ 2) := by
  rw [Request.unpack, Nat.mod_eq_of_lt hw]

theorem value_unpack_of_scalar (h : (Request.unpack nbits w).isArray = false) :
    (Request.unpack nbits w).value = BitVec.ofNat 32 (w / 2 ^ 34) := by
  rw [Request.isArray, ctrl_unpack hw] at h
  rw [Request.unpack, Nat.mod_eq_of_lt hw]
  exact if_neg (Bool.eq_false_iff.mp h)

theorem data_unpack_of_array (h : (Request.unpack nbits w).isArray = true) :
    (Request.unpack nbits w).data = unpackWords ((nbits - 34) / 32) (w / 2 ^ 34) := by
  rw [Request.isArray, ctrl_unpack hw] at h
  rw [Request.unpack, Nat.mod_eq_of_lt hw]
  exact if_pos h

end

/-! ## Decode of encode -/

/-- The packed form of a request decodes as the request does, in its own length and in that length
rounded up by less than one element, which leaves the count of elements as it is. -/
theorem decode_unpack_pack (q : Request) {k : Nat} (hk : k < 32) :
    decode (Request.unpack (q.packedBits + k) q.pack) = decode q := by
  have hfits : q.pack < 2 ^ (q.packedBits + k) :=
    (pack_lt q).trans_le (Nat.pow_le_pow_right (by decide) (Nat.le_add_right ..))
  have hctrl : (Request.unpack (q.packedBits + k) q.pack).ctrl = q.ctrl := by
    rw [ctrl_unpack hfits, ctrl_of_pack]
  refine decode_eq_of_used_fields_eq hctrl ?_ (fun h => ?_) (fun h => ?_)
  · rw [bits_unpack hfits, bits_of_pack]
  · have hscalar : q.isArray = false := by rwa [Request.isArray, ← hctrl]
    rw [value_unpack_of_scalar hfits h, operandNumber_of_pack, operandNumber_of_scalar hscalar,
      BitVec.ofNat_toNat, BitVec.setWidth_eq]
  · have harray : q.isArray = true := by rwa [Request.isArray, ← hctrl]
    have hcount : (q.packedBits + k - 34) / 32 = q.data.length := by
      rw [packedBits_of_array harray]; omega
    rw [data_unpack_of_array hfits h, operandNumber_of_pack, operandNumber_of_array harray, hcount,
      unpackWords_packWords]

/-- Settles O5: the packed form decodes as the fields do, and the fields stand for the operation. -/
theorem packedWordRoundTrip : Obligations.PackedWordRoundTrip := fun i _ hk =>
  congrArg some ((decode_unpack_pack (encode i) hk).trans (decode_encode i))

/-! ## One packed word for each operation -/

/-- Decode and encode lose only the field that packing leaves out. -/
theorem pack_encode_decode (q : Request) :
    (encode (decode q)).pack = q.pack ∧ (encode (decode q)).packedBits = q.packedBits := by
  rcases ctrl_cases q.ctrl with h | h | h | h
  · simp [decode_of_ctrl_00 h, encode, Request.pack, Request.packedBits, Request.isArray, h]
  · simp [decode_of_ctrl_01 h, encode, Request.pack, Request.packedBits, Request.isArray, h]
  · simp [decode_of_ctrl_10 h, encode, Request.pack, Request.packedBits, Request.isArray, h]
  · simp [decode_of_ctrl_11 h, encode, Request.pack, Request.packedBits, Request.isArray, h]

/-- A number in the exact length of the request it unpacks to is that request's packed form. -/
theorem pack_unpack {nbits w : Nat} (hw : w < 2 ^ nbits)
    (hlength : nbits = (Request.unpack nbits w).packedBits) : (Request.unpack nbits w).pack = w := by
  have hoperand : (Request.unpack nbits w).operandNumber = w / 2 ^ 34 := by
    cases h : (Request.unpack nbits w).isArray with
    | false =>
      have h66 : nbits = 66 := hlength.trans (packedBits_of_scalar h)
      rw [operandNumber_of_scalar h, value_unpack_of_scalar hw h, BitVec.toNat_ofNat]
      rw [h66] at hw
      omega
    | true =>
      rw [operandNumber_of_array h, data_unpack_of_array hw h]
      rw [packedBits_of_array h, data_unpack_of_array hw h, length_unpackWords] at hlength
      refine packWords_unpackWords (Nat.div_lt_of_lt_mul ?_)
      rwa [← pow_add, ← hlength]
  rw [pack_eq, hoperand, ctrl_unpack hw, bits_unpack hw, BitVec.toNat_ofNat, BitVec.toNat_ofNat]
  omega

/-- Settles O6: the operation's own word is the packed form of the request that was unpacked. -/
theorem packedWordIsCanonical : Obligations.PackedWordIsCanonical := by
  intro nbits w i hdecode hw hlength
  obtain rfl : decode (Request.unpack nbits w) = i := Option.some.inj hdecode
  obtain ⟨hpack, hbits⟩ := pack_encode_decode (Request.unpack nbits w)
  exact hpack.trans (pack_unpack hw (hlength.trans hbits))

/-- Settles O4: the four rows of R41 with the operands written, and two of them packed. -/
theorem writtenRequestsDecode : Obligations.WrittenRequestsDecode :=
  ⟨decode_of_ctrl_01 rfl, decode_of_ctrl_00 rfl, decode_of_ctrl_10 rfl, by decide, by decide⟩

end Sys2Proof
end

