-- ==== Sys2Proof/Proofs/Answer.lean ====
section
/-! PROOFS. Sys2Proof/Proofs/Answer.lean: every operation either delivers the response of the arithmetic
reading or, overlong with legal `bits`, is refused (10_state.md R18 and R24, 60_exceptions.md R76, R77 and
R84, decision D5). -/

namespace Sys2Proof.Machine

open Sys2Proof.Spec

/-! ## Legal `bits` and the words of the arithmetic reading -/

theorem legal_iff_toNat_le (bits : Word) : Legal bits ↔ bits.toNat ≤ 23 := by
  refine ⟨toNat_le_of_legal, fun h => ?_⟩
  have hsext : sext32 bits = bits.toNat := BitVec.toInt_eq_toNat_of_lt (by omega)
  omega

/-- Settles O1: a pattern above 23 reads as a larger integer or as a negative one. -/
theorem legalBitsAreThePatternsUpTo23 : Obligations.LegalBitsAreThePatternsUpTo23 :=
  fun bits => ⟨legal_iff_toNat_le bits, bitsInRange_iff _⟩

theorem legalPattern_iff (bits : Word) : legalPattern bits = true ↔ Legal bits := by
  rw [legalPattern, decide_eq_true_iff, legal_iff_toNat_le]

theorem lt_32_of_legal {bits : Word} (h : Legal bits) : bits.toNat < 32 :=
  (toNat_le_of_legal h).trans_lt (by decide)

theorem truncWord_of_legal {bits : Word} (h : Legal bits) (v : Word) (round : Bool) :
    truncWord v bits round = truncateLegal v bits.toNat round := by
  rw [truncWord, ← truncateLegal_toNat v (lt_32_of_legal h), BitVec.ofNat_toNat, BitVec.setWidth_eq]

/-! ## The response each operation must give -/

theorem answer_of_not_legal {i : Instr} (h : ¬Legal i.bits) : answer i = .error .invalidArgument := by
  have hpattern : ¬legalPattern i.bits = true := fun hp => h ((legalPattern_iff _).mp hp)
  cases i <;> exact if_neg hpattern

theorem answer_truncZ_of_legal {bits : Word} (h : Legal bits) (v : Word) :
    answer (.truncZ v bits) = .ok (.word (truncateLegal v bits.toNat false)) := by
  rw [← truncWord_of_legal h]
  exact if_pos ((legalPattern_iff bits).mpr h)

theorem answer_truncR_of_legal {bits : Word} (h : Legal bits) (v : Word) :
    answer (.truncR v bits) = .ok (.word (truncateLegal v bits.toNat true)) := by
  rw [← truncWord_of_legal h]
  exact if_pos ((legalPattern_iff bits).mpr h)

theorem answer_truncaZ_of_legal {bits : Word} (h : Legal bits) (data : List Word) :
    answer (.truncaZ data bits)
      = .ok (.words (data.map fun v => truncateLegal v bits.toNat false)) := by
  simp only [← truncWord_of_legal h]
  exact if_pos ((legalPattern_iff bits).mpr h)

theorem answer_truncaR_of_legal {bits : Word} (h : Legal bits) (data : List Word) :
    answer (.truncaR data bits)
      = .ok (.words (data.map fun v => truncateLegal v bits.toNat true)) := by
  simp only [← truncWord_of_legal h]
  exact if_pos ((legalPattern_iff bits).mpr h)

/-! ## All an operation can do -/

/-- An instruction that can be presented to the block delivers the response it must get (R84). -/
theorem exec_of_wellFormed {i : Instr} {s : State} (h : i.wellFormed s.maxArrayLen = true) :
    exec i s = .next (s.deliver i (answer i)) := by
  by_cases hlegal : Legal i.bits
  · cases i with
    | truncZ value bits => exact answer_truncZ_of_legal hlegal value ▸ exec_truncZ_of_legal hlegal ..
    | truncR value bits => exact answer_truncR_of_legal hlegal value ▸ exec_truncR_of_legal hlegal ..
    | truncaZ data bits => exact answer_truncaZ_of_legal hlegal data ▸ exec_truncaZ_of_legal hlegal h
    | truncaR data bits => exact answer_truncaR_of_legal hlegal data ▸ exec_truncaR_of_legal hlegal h
  · rw [exec_of_not_legal hlegal, answer_of_not_legal hlegal]

theorem lengthAllowed_eq_false_iff (maxArrayLen : Option Nat) (n : Nat) :
    lengthAllowed maxArrayLen n = false ↔ ∃ m, maxArrayLen = some m ∧ m < n := by
  cases maxArrayLen <;> simp [lengthAllowed]

/-- A scalar operation can always be presented (R89). -/
theorem wellFormed_of_data_eq_nil {i : Instr} (h : i.data = []) (maxArrayLen : Option Nat) :
    i.wellFormed maxArrayLen = true := by
  cases maxArrayLen <;> simp [Instr.wellFormed, lengthAllowed, h]

/-- What cannot be presented is refused once the range check is passed (decision D5, logs 6 and 7). -/
theorem exec_of_legal_of_overlong {i : Instr} {s : State} (hlegal : Legal i.bits)
    (h : i.wellFormed s.maxArrayLen = false) :
    exec i s = .refused (.arrayTooLong i.data.length) := by
  cases i with
  | truncZ value bits => cases h.symm.trans (wellFormed_of_data_eq_nil rfl _)
  | truncR value bits => cases h.symm.trans (wellFormed_of_data_eq_nil rfl _)
  | truncaZ data bits => exact answerArray_of_legal_of_overlong hlegal h ..
  | truncaR data bits => exact answerArray_of_legal_of_overlong hlegal h ..

/-- All an operation can do: deliver the response it must get, or refuse an overlong sequence. -/
theorem exec_cases (i : Instr) (s : State) :
    exec i s = .next (s.deliver i (answer i)) ∨
    (Legal i.bits ∧ i.wellFormed s.maxArrayLen = false ∧
      exec i s = .refused (.arrayTooLong i.data.length)) := by
  cases hw : i.wellFormed s.maxArrayLen with
  | true => exact .inl (exec_of_wellFormed hw)
  | false =>
    by_cases hlegal : Legal i.bits
    · exact .inr ⟨hlegal, rfl, exec_of_legal_of_overlong hlegal hw⟩
    · exact .inl (answer_of_not_legal hlegal ▸ exec_of_not_legal hlegal s)

theorem exec_next_eq_deliver_answer {i : Instr} {s t : State} (h : exec i s = .next t) :
    t = s.deliver i (answer i) := by
  rcases exec_cases i s with hnext | ⟨-, -, hrefused⟩
  · exact Host.Outcome.next.inj (h.symm.trans hnext)
  · cases h.symm.trans hrefused

/-- Settles O16: a next state is the old one with the answer delivered. -/
theorem execDeliversOneResponseOnly : Obligations.ExecDeliversOneResponseOnly := by
  intro i s t h
  obtain rfl := exec_next_eq_deliver_answer h
  exact ⟨rfl, rfl, rfl, answer i, rfl⟩

/-- Settles O23: of the two cases only the second is a refusal, and its condition excludes the first. -/
theorem onlyOverlongArraysAreRefused : Obligations.OnlyOverlongArraysAreRefused := by
  intro i s
  refine ⟨fun r => ⟨fun h => ?_, ?_⟩, fun f h => ?_⟩
  · rcases exec_cases i s with hnext | ⟨hlegal, hw, hrefused⟩
    · cases h.symm.trans hnext
    · exact ⟨Host.Outcome.refused.inj (h.symm.trans hrefused), hlegal,
        (lengthAllowed_eq_false_iff ..).mp hw⟩
  · rintro ⟨rfl, hlegal, hlong⟩
    exact exec_of_legal_of_overlong hlegal ((lengthAllowed_eq_false_iff ..).mpr hlong)
  · rcases exec_cases i s with hnext | ⟨-, -, hrefused⟩
    · cases h.symm.trans hnext
    · cases h.symm.trans hrefused

/-! ## What a requester reads of the answer (R77) -/

/-- On legal `bits` the answer is OK, and its one result has the form and the length the operation
gives it (R18). -/
theorem answer_of_legal {i : Instr} (h : Legal i.bits) :
    ((encode i).isArray = false ∧ ∃ w, answer i = .ok (.word w)) ∨
    ((encode i).isArray = true ∧ ∃ ws, answer i = .ok (.words ws) ∧ ws.length = i.data.length) := by
  cases i with
  | truncZ value bits => exact .inl ⟨by simp, _, answer_truncZ_of_legal h value⟩
  | truncR value bits => exact .inl ⟨by simp, _, answer_truncR_of_legal h value⟩
  | truncaZ data bits => exact .inr ⟨by simp, _, answer_truncaZ_of_legal h data, List.length_map _⟩
  | truncaR data bits => exact .inr ⟨by simp, _, answer_truncaR_of_legal h data, List.length_map _⟩

/-- Settles O22: the response delivered is the answer, the error without a result on illegal `bits` and
the operation's one result on legal `bits`. -/
theorem statusAndResultAgree : Obligations.StatusAndResultAgree := by
  intro i s t r h hserved
  obtain rfl := exec_next_eq_deliver_answer h
  obtain rfl : answer i = r := by simpa using hserved
  by_cases hlegal : Legal i.bits
  · rcases answer_of_legal hlegal with ⟨harray, w, hr⟩ | ⟨harray, ws, hr, hlength⟩
    · simp [hr, harray, hlegal, statusOf, resultOf, resultDataOf]
    · simp [hr, harray, hlegal, hlength, statusOf, resultOf, resultDataOf]
  · simp [answer_of_not_legal hlegal, hlegal, statusOf, resultOf, resultDataOf]

end Sys2Proof.Machine
end

