-- ==== Sys2Proof/Proofs/Step.lean ====
section
/-! PROOFS. Sys2Proof/Proofs/Step.lean: what one step does with a reset, with nothing presented and with a
request, and what of it other requests and earlier responses can change (R13, R86, R87, R80, R84). -/

namespace Sys2Proof.Machine

open Sys2Proof.Spec

/-! ## Which operation a step runs -/

/-- Settles O11: without a reset the first request presented is taken and decoded. -/
theorem stepRunsTheDecodedRequest : Obligations.StepRunsTheDecodedRequest :=
  fun _ _ _ hr hp => step_of_pending_cons hr hp

/-- Settles O12: presenting a packed word clears the reset and puts its request first. -/
theorem packedWordRunsNext : Obligations.PackedWordRunsNext := by
  intro s nbits w i hdecode
  obtain rfl : decode (Request.unpack nbits w) = i := Option.some.inj hdecode
  exact step_of_pending_cons rfl rfl

/-- Settles O13: neither a reset nor a request is there to take. -/
theorem idleBlockWaits : Obligations.IdleBlockWaits := by
  intro s hr hp
  simp [step, hr, hp]

/-- Settles O14: the asserted reset is taken first, and leaves a block with nothing presented. -/
theorem resetDropsRequestsInFlight : Obligations.ResetDropsRequestsInFlight := by
  intro s q
  have hreset : step s.assertReset = .next s.assertReset.takeReset := step_of_resetAsserted rfl
  refine ⟨hreset, fun t ht => ?_⟩
  obtain rfl := Host.Outcome.next.inj (hreset.symm.trans ht)
  exact step_of_pending_cons rfl rfl

/-! ## What a step delivers -/

/-- A step that works a request and goes on delivers the response that request must get. -/
theorem step_next_eq_deliver_answer {s t : State} {q : Request} {rest : List Request}
    (hr : s.resetAsserted = false) (hp : s.pending = q :: rest) (h : step s = .next t) :
    t = State.deliver { s with pending := rest } (decode q) (answer (decode q)) :=
  exec_next_eq_deliver_answer ((step_of_pending_cons hr hp).symm.trans h)

/-- All a step that goes on can do, with the response it delivers. -/
theorem step_next_answer_cases {s t : State} (h : step s = .next t) :
    t = s.takeReset ∨ t = s ∨
    (∃ q rest, s.pending = q :: rest ∧
      t = State.deliver { s with pending := rest } (decode q) (answer (decode q))) := by
  rcases step_cases s with ⟨-, hreset⟩ | ⟨-, -, hwait⟩ | ⟨q, rest, hr, hp, -⟩
  · exact .inl (Host.Outcome.next.inj (h.symm.trans hreset))
  · exact .inr (.inl (Host.Outcome.next.inj (h.symm.trans hwait)))
  · exact .inr (.inr ⟨q, rest, hp, step_next_eq_deliver_answer hr hp h⟩)

/-- Settles O44: a reset and a wait deliver nothing, and a request gets the response it must get. -/
theorem everyStepKeepsResponsesSound : Obligations.EveryStepKeepsResponsesSound := by
  intro s t hsound h
  rcases step_next_answer_cases h with rfl | rfl | ⟨q, rest, -, rfl⟩
  · exact hsound
  · exact hsound
  · intro x hx
    rcases List.mem_append.mp hx with hold | hnew
    · exact hsound x hold
    · rw [List.mem_singleton.mp hnew]

/-- Settles O45: of the three things a step can do, only working a request adds a response, its own. -/
theorem deliveredResponsesStay : Obligations.DeliveredResponsesStay := by
  intro s t h
  rcases step_next_answer_cases h with rfl | rfl | ⟨q, rest, hp, rfl⟩
  · exact ⟨List.prefix_rfl, Nat.le_succ _, rfl, List.nil_suffix⟩
  · exact ⟨List.prefix_rfl, Nat.le_succ _, rfl, List.suffix_rfl⟩
  · refine ⟨List.prefix_append .., by simp, rfl, ?_⟩
    rw [hp]
    exact List.suffix_cons q rest

/-- Settles O43: after reset nothing is delivered and nothing presented. -/
theorem resetMeetsTheInvariants : Obligations.ResetMeetsTheInvariants :=
  ⟨fun _ hx => absurd hx List.not_mem_nil, fun _ hq => absurd hq List.not_mem_nil⟩

/-! ## The response depends on the request and MAX_ARRAY_LEN alone -/

/-- An operation that goes on in one block goes on in every block of the same MAX_ARRAY_LEN. -/
theorem exec_next_of_maxArrayLen_eq {i : Instr} {s t u : State} (h : exec i s = .next t)
    (hlen : u.maxArrayLen = s.maxArrayLen) : exec i u = .next (u.deliver i (answer i)) := by
  rcases exec_cases i u with hnext | ⟨hlegal, hlong, -⟩
  · exact hnext
  · cases h.symm.trans (exec_of_legal_of_overlong hlegal (hlen ▸ hlong))

/-- Two blocks that differ in history and in the requests behind the first answer the first alike. -/
theorem step_next_of_maxArrayLen_eq {s t u : State} {q : Request} {rest rest' : List Request}
    (hr : s.resetAsserted = false) (hp : s.pending = q :: rest) (h : step s = .next t)
    (hr' : u.resetAsserted = false) (hp' : u.pending = q :: rest')
    (hlen : u.maxArrayLen = s.maxArrayLen) :
    step u = .next (State.deliver { u with pending := rest' } (decode q) (answer (decode q))) :=
  (step_of_pending_cons hr' hp').trans
    (exec_next_of_maxArrayLen_eq ((step_of_pending_cons hr hp).symm.trans h) hlen)

/-- Settles O49: both blocks deliver the answer to the request they share. -/
theorem responseDependsOnRequestAlone : Obligations.ResponseDependsOnRequestAlone := by
  intro s s' t q rest rest' hr hr' hlen hp hp' h
  obtain rfl := step_next_eq_deliver_answer hr hp h
  exact ⟨_, _, step_next_of_maxArrayLen_eq hr hp h hr' hp' hlen.symm, rfl, rfl⟩

/-- Settles O15: the block after the reset differs from the block without it in nothing an answer
depends on. -/
theorem resetIsUnobservable : Obligations.ResetIsUnobservable := by
  intro s t u q hreset h
  obtain rfl := Host.Outcome.next.inj ((step_of_resetAsserted rfl).symm.trans hreset)
  obtain rfl := step_next_eq_deliver_answer rfl rfl h
  exact ⟨_, rfl, _, step_next_of_maxArrayLen_eq rfl rfl h rfl rfl rfl, rfl⟩

/-! ## A failing request leaves no trace (R80) -/

theorem bits_decode (q : Request) : (decode q).bits = q.bits := by
  rcases ctrl_cases q.ctrl with h | h | h | h
  · rw [decode_of_ctrl_00 h, Instr.bits]
  · rw [decode_of_ctrl_01 h, Instr.bits]
  · rw [decode_of_ctrl_10 h, Instr.bits]
  · rw [decode_of_ctrl_11 h, Instr.bits]

/-- A request with illegal `bits` is answered by the error, whatever else it holds. -/
theorem step_of_not_legal {s : State} {bad : Request} {rest : List Request}
    (hr : s.resetAsserted = false) (hp : s.pending = bad :: rest) (hbad : ¬Legal bad.bits) :
    step s = .next
      (State.deliver { s with pending := rest } (decode bad) (.error .invalidArgument)) :=
  (step_of_pending_cons hr hp).trans (exec_of_not_legal (by rwa [bits_decode]) _)

theorem run_succ_of_step {s t : State} (h : step s = .next t) (k : Nat) :
    run (k + 1) s = run k t := by
  rw [run, h]

/-- Settles O50: after the error the next request stands first in a block of the same MAX_ARRAY_LEN. -/
theorem errorDoesNotDisturbTheNextRequest : Obligations.ErrorDoesNotDisturbTheNextRequest := by
  intro s u bad q rest hr hbad h
  have hfirst := step_of_not_legal (s := { s with pending := bad :: q :: rest }) hr rfl hbad
  obtain rfl := step_next_eq_deliver_answer (s := { s with pending := q :: rest }) hr rfl h
  have hsecond := step_next_of_maxArrayLen_eq (s := { s with pending := q :: rest }) hr rfl h
    (u := State.deliver { s with pending := q :: rest } (decode bad) (.error .invalidArgument))
    hr rfl rfl
  exact ⟨_, _, (run_succ_of_step hfirst 1).trans (run_succ_of_step hsecond 0), rfl, rfl, rfl⟩

end Sys2Proof.Machine
end

