-- ==== Sys2Proof/Proofs/Run.lean ====
section
/-! PROOFS. Sys2Proof/Proofs/Run.lean: runs of a block whose requests respect MAX_ARRAY_LEN (R18): none
stops, and as many steps as requests answer them all (R84, R92). -/

namespace Sys2Proof.Machine

open Sys2Proof.Spec

/-! ## Allowed blocks go on -/

/-- In an allowed block the first request is answered. -/
theorem step_of_pendingAllowed {s : State} {q : Request} {rest : List Request}
    (hallowed : PendingAllowed s) (hr : s.resetAsserted = false) (hp : s.pending = q :: rest) :
    step s = .next (State.deliver { s with pending := rest } (decode q) (answer (decode q))) := by
  rw [step_of_pending_cons hr hp]
  exact exec_of_wellFormed (hallowed q (hp ▸ List.mem_cons_self))

theorem step_goes_of_pendingAllowed {s : State} (h : PendingAllowed s) : Goes (step s) := by
  rcases step_cases s with ⟨-, hreset⟩ | ⟨-, -, hwait⟩ | ⟨q, rest, hr, hp, -⟩
  · exact ⟨_, hreset⟩
  · exact ⟨_, hwait⟩
  · exact ⟨_, step_of_pendingAllowed h hr hp⟩

/-- A step leaves an end part of the requests and the same MAX_ARRAY_LEN (O45). -/
theorem pendingAllowed_of_step {s t : State} (hallowed : PendingAllowed s) (h : step s = .next t) :
    PendingAllowed t := by
  obtain ⟨-, -, hlen, hsuffix⟩ := deliveredResponsesStay s t h
  intro q hq
  rw [hlen]
  exact hallowed q (hsuffix.subset hq)

theorem safeRun_of_pendingAllowed (k : Nat) {s : State} (h : PendingAllowed s) : SafeRun k s := by
  induction k generalizing s with
  | zero => exact ⟨s, rfl⟩
  | succ k ih =>
    obtain ⟨t, ht⟩ := step_goes_of_pendingAllowed h
    rw [SafeRun, run_succ_of_step ht]
    exact ih (pendingAllowed_of_step h ht)

/-- Settles O46: an allowed block steps to an allowed block, so no run stops. -/
theorem allowedRunsNeverStop : Obligations.AllowedRunsNeverStop :=
  ⟨fun _ _ hallowed h => pendingAllowed_of_step hallowed h,
    fun k _ h => safeRun_of_pendingAllowed k h⟩

/-! ## All requests are answered -/

/-- One step for each request of the list, by induction over the list (log 1). -/
theorem run_of_pending {pending : List Request} {s : State} (hp : s.pending = pending)
    (hr : s.resetAsserted = false) (hallowed : PendingAllowed s) :
    run pending.length s
      = .next { s with pending := [], served := s.served ++ pending.map transactionOf } := by
  induction pending generalizing s with
  | nil =>
    cases s
    cases hp
    simp [run]
  | cons q rest ih =>
    have hstep := step_of_pendingAllowed hallowed hr hp
    have hrest := ih (s := State.deliver { s with pending := rest } (decode q) (answer (decode q)))
      rfl hr (pendingAllowed_of_step hallowed hstep)
    rw [List.length_cons, run_succ_of_step hstep, hrest]
    simp [State.deliver, transactionOf]

/-- Settles O47: the run over the whole list of requests. -/
theorem runAnswersEveryRequest : Obligations.RunAnswersEveryRequest :=
  fun _ hr hallowed => run_of_pending rfl hr hallowed

/-- Settles O48: either order is a run over its own list, and the lists hold the same requests. -/
theorem orderOfWorkDoesNotMatter : Obligations.OrderOfWorkDoesNotMatter := by
  intro s pending' hr hallowed hperm
  have hallowed' : PendingAllowed { s with pending := pending' } :=
    fun q hq => hallowed q (hperm.mem_iff.mp hq)
  have hrun' := run_of_pending (s := { s with pending := pending' }) rfl hr hallowed'
  rw [hperm.length_eq] at hrun'
  have hserved : (s.served ++ pending'.map transactionOf).Perm
      (s.served ++ s.pending.map transactionOf) := (hperm.map _).append_left _
  exact ⟨_, _, run_of_pending rfl hr hallowed, hrun', rfl, rfl, .refl _, hserved, hserved⟩

end Sys2Proof.Machine
end

