-- ==== Sys2Proof/Proofs/Rounding.lean ====
section
/-! PROOFS. Sys2Proof/Proofs/Rounding.lean: the fields of a pattern as numbers, the guard and the round-up,
and the invariants of a result (R22, R52, R53, R56, R57 and R58 of 40_truncate.md). -/

namespace Sys2Proof.Machine

open Sys2Proof.Spec

/-! ## The fields of a pattern as numbers -/

theorem mantissa_toNat (v : Word) : (mantissa v).toNat = v.toNat % 2 ^ 23 := by
  rw [mantissa, BitVec.extractLsb'_toNat, Nat.shiftRight_zero]

theorem exponent_toNat (v : Word) : (exponent v).toNat = v.toNat / 2 ^ 23 % 2 ^ 8 := by
  rw [exponent, BitVec.extractLsb'_toNat, Nat.shiftRight_eq_div_pow]

theorem signBit_eq_decide (v : Word) : signBit v = decide (2 ^ 31 ≤ v.toNat) :=
  (BitVec.msb_eq_getLsbD_last v).symm.trans (BitVec.msb_eq_decide v)

theorem mantissa_eq_zero_iff (v : Word) : mantissa v = 0#23 ↔ v.toNat % 2 ^ 23 = 0 := by
  rw [← BitVec.toNat_inj, mantissa_toNat, BitVec.toNat_ofNat, Nat.zero_mod]

theorem exponent_eq_iff (v : Word) {e : Nat} (he : e < 2 ^ 8) :
    exponent v = BitVec.ofNat 8 e ↔ v.toNat / 2 ^ 23 % 2 ^ 8 = e := by
  rw [← BitVec.toNat_inj, exponent_toNat, BitVec.toNat_ofNat, Nat.mod_eq_of_lt he]

theorem classify_eq_nan_iff (v : Word) :
    classify v = .nan ↔ v.toNat / 2 ^ 23 % 2 ^ 8 = 255 ∧ v.toNat % 2 ^ 23 ≠ 0 := by
  rw [← exponent_eq_iff v (by decide), Ne, ← mantissa_eq_zero_iff, classify]
  split_ifs <;> simp_all

/-! ## Multiples of 2^n -/

/-- The multiple below a 32-bit pattern leaves room for the next one up to 2^32 itself. -/
theorem next_multiple_le (v : Word) {n : Nat} (hn : n ≤ 32) :
    v.toNat - v.toNat % 2 ^ n + 2 ^ n ≤ 2 ^ 32 := by
  have hv := v.isLt
  rcases multiple_le_or_next_le (Nat.pow_dvd_pow 2 hn) v.toNat with hbelow | habove
  · omega
  · exact habove

theorem truncNat_false (v n : Nat) : truncNat v n false = v - v % 2 ^ n := by
  simp [truncNat]

/-- The two ways a truncation ends, with what decides between them (R48). -/
theorem truncNat_true_cases (v n : Nat) :
    ((v - v % 2 ^ n + 2 ^ n < 2 ^ 32 ∧ 2 ^ n < 2 * (v % 2 ^ n)) ∧
      truncNat v n true = v - v % 2 ^ n + 2 ^ n) ∨
    (¬(v - v % 2 ^ n + 2 ^ n < 2 ^ 32 ∧ 2 ^ n < 2 * (v % 2 ^ n)) ∧
      truncNat v n true = v - v % 2 ^ n) := by
  simp only [truncNat, true_and]
  split
  · next hup => exact .inl ⟨hup, rfl⟩
  · next hup => exact .inr ⟨hup, rfl⟩

/-! ## The guard (R52) -/

theorem masked_le_keepMask (v : Word) {n : Nat} (hn : n < 32) : masked v n ≤ keepMask n := by
  have hnext := next_multiple_le v hn.le
  rw [BitVec.le_def, masked_toNat v hn, keepMask_toNat hn]
  omega

theorem roundGuard_eq_false_iff (v : Word) {n : Nat} (hn : n < 32) :
    roundGuard v n = false ↔ masked v n = keepMask n := by
  rw [roundGuard, decide_eq_false_iff_not, BitVec.not_lt]
  exact ⟨fun hle => BitVec.le_antisymm (masked_le_keepMask v hn) hle, fun heq => heq ▸ BitVec.le_refl _⟩

theorem masked_eq_keepMask_iff (v : Word) {n : Nat} (hn : n < 32) :
    masked v n = keepMask n ↔ ∀ k, n ≤ k → k < 32 → v.getLsbD k = true := by
  refine ⟨fun heq k hk hk32 => ?_, fun hones => BitVec.eq_of_getLsbD_eq fun k hk32 => ?_⟩
  · have hbit : (masked v n).getLsbD k = (keepMask n).getLsbD k := by rw [heq]
    rw [getLsbD_masked v hn, getLsbD_keepMask hn] at hbit
    simpa only [hk, hk32, decide_true, Bool.true_and] using hbit
  · rw [getLsbD_masked v hn, getLsbD_keepMask hn]
    by_cases hk : n ≤ k
    · simp [hk, hk32, hones k hk hk32]
    · simp [hk]

/-- Where the guard fails the pattern is among the 2^n largest. -/
theorem le_toNat_of_roundGuard_eq_false {v : Word} {n : Nat} (hn : n < 32)
    (hguard : roundGuard v n = false) : 2 ^ 32 - 2 ^ n ≤ v.toNat := by
  have hmasked := masked_toNat v hn
  rw [(roundGuard_eq_false_iff v hn).mp hguard, keepMask_toNat hn] at hmasked
  omega

theorem truncateLegal_of_roundGuard_eq_false {v : Word} {n : Nat} (hguard : roundGuard v n = false)
    (round : Bool) : truncateLegal v n round = masked v n := by
  rcases Nat.eq_zero_or_pos n with rfl | hn
  · exact (masked_zero v).symm
  · have hnot : ¬masked v n < keepMask n := of_decide_eq_false hguard
    rw [truncateLegal_of_pos v hn, if_neg fun h => hnot h.2.1]

/-- Settles O27: the guard fails on the 2^n largest patterns, and for `n ≤ 23` these have the sign and
the whole exponent set. -/
theorem guardFailsExactlyOnAllOnes : Obligations.GuardFailsExactlyOnAllOnes := by
  intro v n h1 h23
  have hn : n < 32 := by omega
  refine ⟨masked_le_keepMask v hn,
    (roundGuard_eq_false_iff v hn).trans (masked_eq_keepMask_iff v hn), fun hguard round => ?_⟩
  have hresult := truncateLegal_of_roundGuard_eq_false hguard round
  have hlarge := le_toNat_of_roundGuard_eq_false hn hguard
  have hv := v.isLt
  have hpow : 2 ^ n ≤ 2 ^ 23 := Nat.pow_le_pow_right (by decide) h23
  refine ⟨hresult, ?_, fun h22 => ?_, ?_⟩
  · rw [signBit_eq_decide, decide_eq_true_iff]
    omega
  · have hpow22 : 2 ^ n ≤ 2 ^ 22 := Nat.pow_le_pow_right (by decide) h22
    rw [classify_eq_nan_iff]
    omega
  · rintro rfl
    refine ⟨by rw [hresult, (roundGuard_eq_false_iff v hn).mp hguard]; rfl, ?_⟩
    rw [classify_eq_nan_iff, ← BitVec.toNat_inj]
    simp only [BitVec.toNat_ofNat]
    omega

/-! ## The addition of the round-up (R53) -/

theorem ushiftRight_shiftLeft_eq_masked (v : Word) {n : Nat} (hn : n < 32) :
    (v >>> n) <<< n = masked v n := by
  have hle : v.toNat / 2 ^ n * 2 ^ n ≤ v.toNat := Nat.div_mul_le_self ..
  refine BitVec.eq_of_toNat_eq ?_
  rw [BitVec.toNat_shiftLeft, BitVec.toNat_ushiftRight, Nat.shiftRight_eq_div_pow, Nat.shiftLeft_eq,
    Nat.mod_eq_of_lt (hle.trans_lt v.isLt), masked_toNat v hn, Nat.div_mul_self_eq_mod_sub_self]

/-- Settles O28: the next multiple of 2^n that is below 2^32 is at most the largest one, keepMask. -/
theorem roundUpNeverWraps : Obligations.RoundUpNeverWraps := by
  intro v n _ h23
  have hn : n < 32 := by omega
  refine ⟨fun hguard => ?_, ?_⟩
  · have hsum := masked_add_increment_toNat hn hguard
    have hfits := (roundGuard_iff v hn).mp hguard
    have hlast : 2 ^ n ∣ 2 ^ 32 - 2 ^ n := Nat.dvd_sub (Nat.pow_dvd_pow 2 hn.le) dvd_rfl
    rw [hsum, masked_toNat v hn, keepMask_toNat hn]
    rcases multiple_le_or_next_le hlast v.toNat with hbelow | habove
    · omega
    · exact ⟨habove, rfl⟩
  · rw [BitVec.shiftLeft_add_distrib, ushiftRight_shiftLeft_eq_masked v hn, increment]

/-! ## The sign (R56) -/

theorem or_signBit_toNat {v : Word} (h : v.getLsbD 31 = false) :
    (v ||| 0x80000000#32).toNat = v.toNat + 2 ^ 31 := by
  have hlt : v.toNat < 2 ^ 31 := by
    have hsign : signBit v = false := h
    rw [signBit_eq_decide, decide_eq_false_iff_not] at hsign
    omega
  rw [BitVec.toNat_or, Nat.or_comm, Nat.add_comm]
  exact (Nat.two_pow_add_eq_or_of_lt hlt 1).symm

/-- Bit 31 lies above all dropped bits, so it passes through unless the round-up carries into it. -/
theorem truncNat_true_add_sign {v n : Nat} (hn : n ≤ 31) (hresult : truncNat v n true < 2 ^ 31) :
    truncNat (v + 2 ^ 31) n true = truncNat v n true + 2 ^ 31 := by
  have hmod : (v + 2 ^ 31) % 2 ^ n = v % 2 ^ n := by
    rw [← Nat.add_mod_mod, Nat.mod_eq_zero_of_dvd (Nat.pow_dvd_pow 2 hn), Nat.add_zero]
  have hle : v % 2 ^ n ≤ v := Nat.mod_le v _
  have hpow : 2 ^ n ≤ 2 ^ 31 := Nat.pow_le_pow_right (by decide) hn
  rcases truncNat_true_cases v n with ⟨⟨-, hpast⟩, hv⟩ | ⟨hdown, hv⟩
  · rw [hv] at hresult ⊢
    simp only [truncNat, hmod, true_and]
    rw [if_pos ⟨by omega, hpast⟩]
    omega
  · rw [hv] at hresult ⊢
    simp only [truncNat, hmod, true_and]
    rw [if_neg (by omega)]
    omega

/-- Settles O30: on numbers setting the sign is adding 2^31, before the rounding or after it. -/
theorem roundingIsSymmetricAboutZero : Obligations.RoundingIsSymmetricAboutZero := by
  intro v b w hv hcore hw
  obtain ⟨hb, rfl⟩ := (truncateCore_eq_ok_iff ..).mp hcore
  have hn : b.toNat < 32 := by omega
  refine (truncateCore_eq_ok_iff ..).mpr ⟨hb, BitVec.eq_of_toNat_eq ?_⟩
  have hresult : truncNat v.toNat b.toNat true < 2 ^ 31 := by
    have hsum := or_signBit_toNat hw
    have hlt := (truncateLegal v b.toNat true ||| 0x80000000#32).isLt
    rw [truncateLegal_toNat v hn] at hsum
    omega
  rw [or_signBit_toNat hw, truncateLegal_toNat _ hn, truncateLegal_toNat _ hn, or_signBit_toNat hv,
    truncNat_true_add_sign (by omega) hresult]

/-! ## The carry out of the mantissa (R57) -/

/-- A number with bits m-1..n set is, below 2^m, among the 2^n largest. -/
theorem two_pow_sub_le_mod_of_testBit {x n m : Nat}
    (h : ∀ k, n ≤ k → k < m → x.testBit k = true) : 2 ^ m - 2 ^ n ≤ x % 2 ^ m := by
  rcases Nat.le_total n m with hnm | hmn
  · induction m, hnm using Nat.le_induction with
    | base => omega
    | succ m hnm ih =>
      have hlow := ih fun k hk hkm => h k hk (by omega)
      have hbit : x / 2 ^ m % 2 = 1 := by
        simpa [Nat.testBit_eq_decide_div_mod_eq] using h m hnm (by omega)
      rw [Nat.mod_pow_succ, hbit, pow_succ]
      omega
  · have hpow : 2 ^ m ≤ 2 ^ n := Nat.pow_le_pow_right (by decide) hmn
    omega

/-- The 9-bit number of the sign and the exponent grows by one, its mantissa becoming zero. -/
theorem truncNat_true_of_carry {v n : Nat} (hn : n ≤ 23) (hones : 2 ^ 23 - 2 ^ n ≤ v % 2 ^ 23)
    (hpast : 2 ^ n < 2 * (v % 2 ^ n)) (hroom : v / 2 ^ 23 + 1 < 2 ^ 9) :
    truncNat v n true = (v / 2 ^ 23 + 1) * 2 ^ 23 := by
  have hnext : 2 ^ n ∣ (v / 2 ^ 23 + 1) * 2 ^ 23 :=
    (Nat.pow_dvd_pow 2 hn).trans (Nat.dvd_mul_left ..)
  have hlast : 2 ^ n ∣ (v / 2 ^ 23 + 1) * 2 ^ 23 - 2 ^ n := Nat.dvd_sub hnext dvd_rfl
  have hmod : v % 2 ^ n < 2 ^ n := Nat.mod_lt v (Nat.two_pow_pos n)
  have hup : v - v % 2 ^ n + 2 ^ n = (v / 2 ^ 23 + 1) * 2 ^ 23 := by
    have habove := (multiple_le_or_next_le hnext v).resolve_left (by omega)
    have hbelow := (multiple_le_or_next_le hlast v).resolve_right (by omega)
    omega
  rcases truncNat_true_cases v n with ⟨-, hresult⟩ | ⟨hdown, -⟩
  · rw [hresult, hup]
  · omega

/-- Settles O31: kept mantissa bits all 1 leave one multiple of 2^n up to the carry. -/
theorem carryReachesExponentAndSign : Obligations.CarryReachesExponentAndSign := by
  intro v n _ h23 hones hpast hroom
  have hv := v.isLt
  rw [truncateLegal_toNat v (by omega)]
  refine truncNat_true_of_carry h23 (two_pow_sub_le_mod_of_testBit fun k hk hk23 => ?_) hpast
    (by omega)
  rw [BitVec.testBit_toNat]
  exact hones k hk hk23

/-! ## The invariants of a result (R58) -/

theorem truncateLegal_eq_masked_or (v : Word) (n : Nat) (round : Bool) :
    truncateLegal v n round = masked v n ∨ truncateLegal v n round = masked v n + increment n := by
  rcases Nat.eq_zero_or_pos n with rfl | hn
  · exact .inl (masked_zero v).symm
  · rw [truncateLegal_of_pos v hn]
    split
    · exact .inr rfl
    · exact .inl rfl

/-- With the guard the error is at most half of 2^n, and below it upwards (R58 (c)). -/
theorem truncNat_true_error {v n : Nat} (h1 : 1 ≤ n) (hfits : v - v % 2 ^ n + 2 ^ n < 2 ^ 32) :
    v ≤ truncNat v n true + 2 ^ (n - 1) ∧ truncNat v n true + 1 ≤ v + 2 ^ (n - 1) := by
  have htwice : 2 * 2 ^ (n - 1) = 2 ^ n := mul_pow_sub_one (by omega) 2
  have hpos : 0 < 2 ^ (n - 1) := Nat.two_pow_pos _
  have hmod : v % 2 ^ n < 2 ^ n := Nat.mod_lt v (Nat.two_pow_pos n)
  have hle : v % 2 ^ n ≤ v := Nat.mod_le v _
  rcases truncNat_true_cases v n with ⟨hup, hresult⟩ | ⟨hdown, hresult⟩ <;> omega

/-- Masking takes away less than 2^n (R58 (d) and (e)). -/
theorem masked_error (v : Word) {n : Nat} (hn : n < 32) :
    (masked v n).toNat ≤ v.toNat ∧ v.toNat + 1 ≤ (masked v n).toNat + 2 ^ n := by
  have hmod : v.toNat % 2 ^ n < 2 ^ n := Nat.mod_lt _ (Nat.two_pow_pos n)
  rw [masked_toNat v hn]
  omega

/-- Settles O32: clause by clause; where the guard fails the rounded result is the masked one. -/
theorem resultInvariants : Obligations.ResultInvariants := by
  intro v n h23
  have hn : n < 32 := by omega
  obtain ⟨hle, hlt⟩ := masked_error v hn
  have hcast : ((2 ^ n : Nat) : Int) = 2 ^ n := by norm_cast
  have hcast' : ((2 ^ (n - 1) : Nat) : Int) = 2 ^ (n - 1) := by norm_cast
  refine ⟨fun round => ?_, truncateLegal_eq_masked_or v n, truncateLegal_false v n,
    fun h1 hguard => ?_, fun _ hguard => ?_, ?_, ?_⟩
  · rw [truncateLegal_toNat v hn]
    exact Nat.mod_eq_zero_of_dvd (dvd_truncNat ..)
  · obtain ⟨hbelow, habove⟩ := truncNat_true_error h1 ((roundGuard_iff v hn).mp hguard)
    rw [truncateLegal_toNat v hn]
    omega
  · rw [truncateLegal_of_roundGuard_eq_false hguard]
    omega
  · rw [truncateLegal_false]
    omega
  · rintro rfl round
    exact truncateLegal_zero v round

end Sys2Proof.Machine
end

