-- ==== Sys2Proof/Proofs/Composition.lean ====
section
/-! PROOFS. Sys2Proof/Proofs/Composition.lean: what truncation leaves unchanged, truncating twice, and the
two ends of the range of `bits` (R59 and R61 to R67 of 40_truncate.md). -/

namespace Sys2Proof.Machine

open Sys2Proof.Spec

/-! ## Multiples of 2^n are unchanged (R59, R61) -/

theorem truncateLegal_of_dvd {v : Word} {n : Nat} (hn : n < 32) (h : 2 ^ n ∣ v.toNat)
    (round : Bool) : truncateLegal v n round = v := by
  refine BitVec.eq_of_toNat_eq ?_
  simp [truncateLegal_toNat v hn, truncNat, Nat.mod_eq_zero_of_dvd h]

/-- Settles O33: the four patterns are multiples of 2^23, so of every smaller power. -/
theorem zerosAndInfinitiesAreUnchanged : Obligations.ZerosAndInfinitiesAreUnchanged := by
  intro v bits round hlegal hv
  have hdvd23 : 2 ^ 23 ∣ v.toNat := by
    rcases hv with rfl | rfl | rfl | rfl <;> decide
  have hdvd : 2 ^ bits.toNat ∣ v.toNat :=
    (Nat.pow_dvd_pow 2 (toNat_le_of_legal hlegal)).trans hdvd23
  rw [truncateCore_of_legal hlegal, truncateLegal_of_dvd (lt_32_of_legal hlegal) hdvd]

/-- Settles O36: a result is a multiple of 2^b. -/
theorem truncationIsIdempotent : Obligations.TruncationIsIdempotent := by
  intro v b round w hcore
  obtain ⟨hb, rfl⟩ := (truncateCore_eq_ok_iff ..).mp hcore
  have hn : b.toNat < 32 := by omega
  have hdvd : 2 ^ b.toNat ∣ (truncateLegal v b.toNat round).toNat := by
    rw [truncateLegal_toNat v hn]
    exact dvd_truncNat ..
  exact (truncateCore_eq_ok_iff ..).mpr ⟨hb, truncateLegal_of_dvd hn hdvd round⟩

/-! ## Masking twice (R62) -/

section
variable (v : Word) {n m : Nat} (hnm : n ≤ m) (hm : m < 32)
include hnm hm

theorem masked_masked_of_le : masked (masked v n) m = masked v m := by
  refine BitVec.eq_of_getLsbD_eq fun k _ => ?_
  rw [getLsbD_masked _ hm, getLsbD_masked _ hm, getLsbD_masked _ (hnm.trans_lt hm)]
  by_cases hk : m ≤ k
  · simp [hnm.trans hk]
  · simp [hk]

/-- The bits of the coarser mask are among those of the finer one. -/
theorem masked_and_not_masked_of_le : masked v m &&& ~~~masked v n = 0#32 := by
  refine BitVec.eq_of_getLsbD_eq fun k hk32 => ?_
  rw [BitVec.getLsbD_and, BitVec.getLsbD_not, getLsbD_masked _ hm,
    getLsbD_masked _ (hnm.trans_lt hm), BitVec.getLsbD_zero]
  by_cases hk : m ≤ k
  · simp [hnm.trans hk, hk32]
  · simp [hk]

end

/-- Settles O37: without rounding both results are masked patterns. -/
theorem maskingComposes : Obligations.MaskingComposes := by
  intro v b1 b2 w1 w2 hle hcore1 hcore2
  obtain ⟨hb1, rfl⟩ := (truncateCore_eq_ok_iff ..).mp hcore1
  obtain ⟨hb2, rfl⟩ := (truncateCore_eq_ok_iff ..).mp hcore2
  have hnm : b1.toNat ≤ b2.toNat := Int.toNat_le_toNat hle
  have hm : b2.toNat < 32 := by omega
  simp only [truncateCore_eq_ok_iff, truncateLegal_false]
  exact ⟨masked_and_not_masked_of_le v hnm hm, hb2, masked_masked_of_le v hnm hm⟩

/-- Settles O38: the rule's example is also what refutes the composition law. -/
theorem doubleRoundingDiffers : Obligations.DoubleRoundingDiffers :=
  ⟨by decide, by decide, by decide, fun hlaw =>
    absurd (hlaw 0x3F800009#32 0x3F800008#32 0x3F800000#32 2 4 (by decide) (by decide) (by decide))
      (by decide)⟩

/-! ## The two ends of the range (R64, R67) -/

/-- At `n = 23` the remainder is the mantissa and the quotient the 9 bits above it (R64). -/
theorem truncNat_true_23_div {v : Nat} (hv : v < 2 ^ 32) :
    truncNat v 23 true / 2 ^ 23
      = v / 2 ^ 23 + (if 0x400000 < v % 2 ^ 23 ∧ v / 2 ^ 23 ≠ 0x1FF then 1 else 0) := by
  rcases truncNat_true_cases v 23 with ⟨hup, hresult⟩ | ⟨hdown, hresult⟩
  · rw [hresult, if_pos (by omega)]
    omega
  · rw [hresult, if_neg (by omega)]
    omega

/-- Settles O39: the mask is the rule's literal, and the rounded result a multiple of 2^23. -/
theorem maximumTruncation : Obligations.MaximumTruncation := by
  refine ⟨fun v => ⟨?_, truncateLegal v 23 true, ?_, ?_, ?_⟩, by decide, by decide⟩
  · exact (truncateCore_eq_ok_iff ..).mpr ⟨by decide, truncateLegal_false v 23⟩
  · exact (truncateCore_eq_ok_iff ..).mpr ⟨by decide, rfl⟩
  · rw [mantissa_eq_zero_iff, truncateLegal_toNat v (by decide)]
    exact Nat.mod_eq_zero_of_dvd (dvd_truncNat ..)
  · rw [truncateLegal_toNat v (by decide), truncNat_true_23_div v.isLt, mantissa_toNat]

/-- The one dropped bit is at most the midpoint 1. -/
theorem truncateLegal_one (v : Word) (round : Bool) : truncateLegal v 1 round = masked v 1 := by
  have hnot : ¬roundThreshold 1 < dropped v 1 := by
    rw [roundThreshold_lt_dropped_iff v le_rfl (by decide)]
    omega
  rw [truncateLegal_of_pos v le_rfl, if_neg fun h => hnot h.2.2]

/-- Settles O40: at `b = 1` both results are the masked pattern. -/
theorem bitsOneNeverRounds : Obligations.BitsOneNeverRounds :=
  ⟨fun v => ⟨masked v 1, (truncateCore_eq_ok_iff ..).mpr ⟨by decide, truncateLegal_one v true⟩,
    (truncateCore_eq_ok_iff ..).mpr ⟨by decide, truncateLegal_one v false⟩⟩, by decide, by decide⟩

end Sys2Proof.Machine
end

