-- ==== Sys2Proof/Proofs/ErrorBound.lean ====
section
/-! PROOFS. Sys2Proof/Proofs/ErrorBound.lean: the relative error of a normal pattern (R60 of 40_truncate.md,
with the value reading of log 10). A normal pattern is `binade s e + m`: sign `s`, exponent field `e + 1`,
mantissa `m`. Truncation moves only `m`, and within one binade the magnitude is linear in `m`, the first
pattern of the next binade (`m = 2^23`) included, so the carry needs no case of its own. -/

namespace Sys2Proof.Machine

open Sys2Proof.Spec

/-! ## The binade of a normal pattern -/

/-- The first pattern, as a number, of sign `s` with exponent field `e + 1`. -/
def binade (s e : Nat) : Nat := s * 2 ^ 31 + (e + 1) * 2 ^ 23

theorem two_pow_dvd_binade {n : Nat} (hn : n ≤ 23) (s e : Nat) : 2 ^ n ∣ binade s e :=
  (Nat.pow_dvd_pow 2 hn).trans (by rw [binade]; omega)

theorem classify_eq_normal_iff (v : Word) :
    classify v = .normal ↔ v.toNat / 2 ^ 23 % 2 ^ 8 ≠ 255 ∧ v.toNat / 2 ^ 23 % 2 ^ 8 ≠ 0 := by
  rw [Ne, Ne, ← exponent_eq_iff v (by decide), ← exponent_eq_iff v (by decide), classify]
  split_ifs <;> simp_all

theorem exists_binade_of_normal {v : Word} (h : classify v = .normal) :
    ∃ s e m, s ≤ 1 ∧ e ≤ 253 ∧ m < 2 ^ 23 ∧ v.toNat = binade s e + m := by
  have hv := v.isLt
  rw [classify_eq_normal_iff] at h
  refine ⟨v.toNat / 2 ^ 31, v.toNat / 2 ^ 23 % 2 ^ 8 - 1, v.toNat % 2 ^ 23, ?_⟩
  rw [binade]
  omega

section
variable {w : Word} {s e m : Nat} (he : e ≤ 253) (hw : w.toNat = binade s e + m)
include he hw

theorem signBit_of_binade (hs : s ≤ 1) (hm : m ≤ 2 ^ 23) : signBit w = decide (s = 1) := by
  rw [binade] at hw
  rw [signBit_eq_decide, decide_eq_decide]
  omega

theorem classify_of_binade (hm : m < 2 ^ 23) : classify w = .normal := by
  rw [binade] at hw
  rw [classify_eq_normal_iff]
  omega

/-- Linear in `m` up to and including the next binade's first pattern. -/
theorem magnitude_of_binade (hm : m ≤ 2 ^ 23) : magnitude w = (2 ^ 23 + m) * 2 ^ e := by
  rw [binade] at hw
  have hexponent : exponent w ≠ 0#8 := by
    rw [Ne, exponent_eq_iff w (by decide)]
    omega
  rw [magnitude, if_neg hexponent, exponent_toNat, mantissa_toNat]
  rcases Nat.lt_or_eq_of_le hm with hlt | rfl
  · have hfields : w.toNat % 2 ^ 23 = m ∧ w.toNat / 2 ^ 23 % 2 ^ 8 - 1 = e := by omega
    rw [hfields.1, hfields.2]
  · have hfields : w.toNat % 2 ^ 23 = 0 ∧ w.toNat / 2 ^ 23 % 2 ^ 8 - 1 = e + 1 := by omega
    rw [hfields.1, hfields.2, pow_succ]
    omega

end

/-! ## Truncation within a binade -/

section
variable {s e m n : Nat} (hn : n ≤ 23) (hm : m < 2 ^ 23)
include hn hm

/-- The multiples of 2^n around a pattern lie in its binade or begin the next. -/
theorem multiples_in_binade :
    binade s e ≤ binade s e + m - (binade s e + m) % 2 ^ n ∧
    binade s e + m - (binade s e + m) % 2 ^ n + 2 ^ n ≤ binade s e + 2 ^ 23 := by
  have hmod : (binade s e + m) % 2 ^ n < 2 ^ n := Nat.mod_lt _ (Nat.two_pow_pos n)
  have hfirst := two_pow_dvd_binade hn s e
  have hnext : 2 ^ n ∣ binade s e + 2 ^ 23 := dvd_add hfirst (Nat.pow_dvd_pow 2 hn)
  have hbelow := (multiple_le_or_next_le hfirst (binade s e + m)).resolve_right (by omega)
  have habove := (multiple_le_or_next_le hnext (binade s e + m)).resolve_left (by omega)
  exact ⟨hbelow, habove⟩

/-- Rounding moves the mantissa by at most half of 2^n, possibly to the next binade (R58 (c)). -/
theorem truncNat_true_in_binade (hs : s ≤ 1) (he : e ≤ 253) :
    ∃ m', m' ≤ 2 ^ 23 ∧ truncNat (binade s e + m) n true = binade s e + m' ∧
      2 * m ≤ 2 * m' + 2 ^ n ∧ 2 * m' ≤ 2 * m + 2 ^ n := by
  have hroom : binade s e + 2 ^ 23 < 2 ^ 32 := by rw [binade]; omega
  have hle : (binade s e + m) % 2 ^ n ≤ binade s e + m := Nat.mod_le ..
  obtain ⟨hbelow, habove⟩ := multiples_in_binade (s := s) (e := e) hn hm
  refine ⟨truncNat (binade s e + m) n true - binade s e, ?_⟩
  rcases truncNat_true_cases (binade s e + m) n with ⟨hup, hresult⟩ | ⟨hdown, hresult⟩ <;> omega

/-- Masking takes less than 2^n off the mantissa (R58 (e)). -/
theorem truncNat_false_in_binade :
    ∃ m', m' ≤ m ∧ truncNat (binade s e + m) n false = binade s e + m' ∧ m < m' + 2 ^ n := by
  have hmod : (binade s e + m) % 2 ^ n < 2 ^ n := Nat.mod_lt _ (Nat.two_pow_pos n)
  obtain ⟨hbelow, -⟩ := multiples_in_binade (s := s) (e := e) hn hm
  refine ⟨truncNat (binade s e + m) n false - binade s e, ?_⟩
  rw [truncNat_false]
  omega

end

/-! ## The bounds -/

/-- Settles O34: the error is that of the mantissa, scaled by the binade. -/
theorem roundingErrorBound : Obligations.RoundingErrorBound := by
  intro v n h23 hnormal _
  obtain ⟨s, e, m, hs, he, hm, hv⟩ := exists_binade_of_normal hnormal
  obtain ⟨m', hm', hresult, hlow, hhigh⟩ := truncNat_true_in_binade (s := s) (e := e) h23 hm hs he
  have hw : (truncateLegal v n true).toNat = binade s e + m' := by
    rw [truncateLegal_toNat v (by omega), hv, hresult]
  refine ⟨(signBit_of_binade he hw hs hm').trans (signBit_of_binade he hv hs hm.le).symm, ?_⟩
  rw [magnitude_of_binade he hw hm', magnitude_of_binade he hv hm.le]
  have hmantissa : |(m' : Int) - m| * 2 ≤ 2 ^ n := by
    have hcast : ((2 ^ n : Nat) : Int) = 2 ^ n := by norm_cast
    rcases abs_cases ((m' : Int) - m) with ⟨habs, -⟩ | ⟨habs, -⟩ <;> omega
  push_cast
  rw [← sub_mul, add_sub_add_left_eq_sub, abs_mul, abs_of_pos (by positivity : (0 : Int) < 2 ^ e)]
  calc |(m' : Int) - m| * 2 ^ e * 2 ^ 24
      = |(m' : Int) - m| * 2 * (2 ^ 23 * 2 ^ e) := by ring
    _ ≤ 2 ^ n * ((2 ^ 23 + (m : Int)) * 2 ^ e) := by gcongr; omega

/-- Settles O35: masking keeps the binade and only lowers the mantissa. -/
theorem maskingErrorBound : Obligations.MaskingErrorBound := by
  intro v n h23 hnormal
  obtain ⟨s, e, m, hs, he, hm, hv⟩ := exists_binade_of_normal hnormal
  obtain ⟨m', hm', hresult, hlow⟩ := truncNat_false_in_binade (s := s) (e := e) h23 hm
  have hw : (truncateLegal v n false).toNat = binade s e + m' := by
    rw [truncateLegal_toNat v (by omega), hv, hresult]
  have hlt : m' < 2 ^ 23 := hm'.trans_lt hm
  refine ⟨classify_of_binade he hw hlt,
    (signBit_of_binade he hw hs hlt.le).trans (signBit_of_binade he hv hs hm.le).symm, ?_⟩
  rw [magnitude_of_binade he hw hlt.le, magnitude_of_binade he hv hm.le]
  refine ⟨by gcongr, ?_⟩
  calc ((2 ^ 23 + m) * 2 ^ e - (2 ^ 23 + m') * 2 ^ e) * 2 ^ 23
      = (m - m') * (2 ^ 23 * 2 ^ e) := by
        rw [← Nat.sub_mul, Nat.add_sub_add_left]
        ring
    _ < 2 ^ n * (2 ^ 23 * 2 ^ e) := by gcongr; omega
    _ ≤ 2 ^ n * ((2 ^ 23 + m) * 2 ^ e) := by gcongr; omega

end Sys2Proof.Machine
end

