-- ==== Sys2Proof/Proofs/ArrayOrder.lean ====
section
/-! PROOFS. Sys2Proof/Proofs/ArrayOrder.lean: the array form against the scalar form, and the in-place form
against the copying one (R69, R71, R72 and R75 of 41_truncate_array.md). -/

namespace Sys2Proof.Machine

/-- Settles O41: the array core maps over the elements the word the scalar core answers. -/
theorem arrayAgreesWithScalar : Obligations.ArrayAgreesWithScalar := by
  intro data b round h0 h23
  have hscalar (v : Word) : truncateCore v b round = .ok (truncateLegal v b.toNat round) :=
    (truncateCore_eq_ok_iff ..).mpr ⟨⟨h0, h23⟩, rfl⟩
  refine ⟨_, (truncateArrayCore_eq_ok_iff ..).mpr ⟨⟨h0, h23⟩, rfl⟩, List.length_map _,
    fun k v hk => ⟨_, ?_, hscalar v⟩, ?_, ?_⟩
  · rw [List.getElem?_map, hk, Option.map_some]
  · rintro rfl
    rfl
  · rintro v w rfl
    simp [hscalar]

/-- Each place is worked as often as it stands in the order. -/
theorem getElem?_truncateInPlace {order : List Nat} (hnodup : order.Nodup) (data : List Word)
    (n : Nat) (round : Bool) (k : Nat) :
    (truncateInPlace order data n round)[k]?
      = data[k]?.map fun v => if k ∈ order then truncateLegal v n round else v := by
  induction order generalizing data with
  | nil => simp [truncateInPlace]
  | cons j order ih =>
    obtain ⟨hj, hnodup⟩ := List.nodup_cons.mp hnodup
    have hstep : truncateInPlace (j :: order) data n round
        = truncateInPlace order (data.modify j fun v => truncateLegal v n round) n round := rfl
    rw [hstep, ih hnodup, List.getElem?_modify]
    by_cases hkj : k = j
    · subst hkj
      simp [hj, Function.comp_def]
    · simp [hkj, Ne.symm hkj]

/-- Settles O42: an order that is a permutation of the places holds each of them once. -/
theorem inPlaceOrderDoesNotMatter : Obligations.InPlaceOrderDoesNotMatter := by
  intro data order b round ws hperm hcore
  obtain ⟨-, rfl⟩ := (truncateArrayCore_eq_ok_iff ..).mp hcore
  have hnodup : order.Nodup := hperm.nodup_iff.mpr List.nodup_range
  refine List.ext_getElem? fun k => ?_
  rw [getElem?_truncateInPlace hnodup, List.getElem?_map]
  by_cases hk : k < data.length
  · have hmem : k ∈ order := hperm.mem_iff.mpr (List.mem_range.mpr hk)
    simp [hmem]
  · simp [List.getElem?_eq_none (Nat.le_of_not_lt hk)]

end Sys2Proof.Machine
end

