-- ==== Sys2Proof/Proofs/AssemblyText.lean ====
section
/-! PROOFS. Sys2Proof/Proofs/AssemblyText.lean: each reader of the assembler reads back what the writer of
the same form wrote, up to whole statements (R45 and R46 of 30_encoding.md, spacing by log 11). -/

namespace Sys2Proof.Machine

/-! ## Digits -/

/-- A character that is written for no digit: a space, a separator or a sign. -/
abbrev NoDigit (c : Char) : Prop := ∀ d < 16, c ≠ digitChar d

theorem digitVal_digitChar : ∀ d < 16, digitVal (digitChar d) = some d := by decide

theorem digitChar_toNat : ∀ d < 10, (digitChar d).toNat = 48 + d := by decide

theorem not_mem_hexDigits {c : Char} (hc : NoDigit c) (k n : Nat) : c ∉ hexDigits k n := by
  induction k generalizing n with
  | zero => exact List.not_mem_nil
  | succ k ih =>
    rw [hexDigits, List.mem_append, List.mem_singleton, not_or]
    exact ⟨ih _, hc _ (Nat.mod_lt n (by decide))⟩

/-- A decimal digit is a hex digit below 10. -/
theorem mem_decDigits {c : Char} {fuel n : Nat} (h : c ∈ decDigits fuel n) :
    ∃ d < 10, c = digitChar d := by
  induction fuel generalizing n with
  | zero => cases h
  | succ fuel ih =>
    rw [decDigits] at h
    split at h
    · next hn => exact ⟨n, hn, List.mem_singleton.mp h⟩
    · rcases List.mem_append.mp h with hhigh | hlow
      · exact ih hhigh
      · exact ⟨n % 10, Nat.mod_lt n (by decide), List.mem_singleton.mp hlow⟩

theorem decDigits_succ_ne_nil (fuel n : Nat) : decDigits (fuel + 1) n ≠ [] := by
  rw [decDigits]
  split <;> simp

/-! ## Patterns -/

/-- Reading the digits written for the low `4 * k` bits of `n` appends them to those read before. -/
theorem readHex_hexDigits (k j acc n : Nat) (cs : List Char) :
    readHex (k + j) acc (hexDigits k n ++ cs) = readHex j (16 ^ k * acc + n % 16 ^ k) cs := by
  induction k generalizing j n cs with
  | zero => simp [hexDigits, Nat.mod_one]
  | succ k ih =>
    have hdigit : digitVal (digitChar (n % 16)) = some (n % 16) :=
      digitVal_digitChar _ (Nat.mod_lt n (by decide))
    have hvalue : 16 * (16 ^ k * acc + n / 16 % 16 ^ k) + n % 16
        = 16 ^ (k + 1) * acc + n % 16 ^ (k + 1) := by
      rw [pow_succ', Nat.mod_mul]
      ring
    rw [hexDigits, List.append_assoc, Nat.add_assoc, ih, Nat.add_comm 1 j, List.singleton_append,
      readHex, hdigit]
    exact congrArg (readHex j · cs) hvalue

theorem readPattern_hexPattern (w : Word) (rest : List Char) :
    readPattern (hexPattern w ++ rest) = some (w, rest) := by
  have hread : readHex 8 0 (hexWord w ++ rest) = some (w.toNat, rest) := by
    have hdigits := readHex_hexDigits 8 0 0 w.toNat rest
    rwa [Nat.mul_zero, Nat.zero_add, Nat.mod_eq_of_lt (by exact w.isLt)] at hdigits
  rw [hexPattern, List.cons_append, List.cons_append, readPattern, hread]
  simp

theorem not_mem_hexPattern {c : Char} (hc : NoDigit c) (hx : c ≠ 'x') (w : Word) :
    c ∉ hexPattern w := by
  have h0 : c ≠ '0' := hc 0 (by decide)
  simp [hexPattern, h0, hx, hexWord, not_mem_hexDigits hc]

/-! ## Spaces -/

theorem skipSpaces_of_ne {c : Char} (h : c ≠ ' ') (cs : List Char) : skipSpaces (c :: cs) = c :: cs := by
  simp [skipSpaces, h]

theorem skipSpaces_of_not_mem {cs : List Char} (h : ' ' ∉ cs) : skipSpaces cs = cs := by
  cases cs with
  | nil => rfl
  | cons c cs => exact skipSpaces_of_ne (fun hc => h (hc ▸ List.mem_cons_self)) cs

theorem skipSpaces_hexPattern (w : Word) (rest : List Char) :
    skipSpaces (hexPattern w ++ rest) = hexPattern w ++ rest :=
  skipSpaces_of_ne (by decide) _

/-! ## Bits -/

/-- With fuel for all its digits a numeral reads as its number. -/
theorem readDec_decDigits {fuel n : Nat} (h : n < 10 ^ fuel) (rest : List Char) :
    readDec 0 (decDigits fuel n ++ rest) = readDec n rest := by
  induction fuel generalizing n rest with
  | zero =>
    obtain rfl : n = 0 := by omega
    rfl
  | succ fuel ih =>
    rw [decDigits]
    split
    · next hn =>
      have hdigit := digitChar_toNat n hn
      rw [List.singleton_append, readDec, if_pos (by omega), hdigit]
      congr 1
      omega
    · have hdigit := digitChar_toNat (n % 10) (Nat.mod_lt n (by decide))
      rw [List.append_assoc, ih (by omega), List.singleton_append, readDec, if_pos (by omega), hdigit]
      congr 1
      omega

theorem readNat_decDigits {n : Nat} (h : n < 10 ^ 10) : readNat (decDigits 10 n) = some (n, []) := by
  have hread := readDec_decDigits h []
  obtain ⟨c, cs, hcons⟩ := List.exists_cons_of_ne_nil (decDigits_succ_ne_nil 9 n)
  obtain ⟨d, hd, rfl⟩ := mem_decDigits (hcons ▸ List.mem_cons_self : c ∈ decDigits 10 n)
  have hdigit := digitChar_toNat d hd
  rw [List.append_nil, hcons] at hread
  rw [hcons, readNat, if_pos (by omega), hread, readDec]

theorem readBits_of_nonneg {c : Char} {cs rest : List Char} {n : Nat} (hc : c ≠ '-')
    (hread : readNat (c :: cs) = some (n, rest)) (hn : n < 2 ^ 31) :
    readBits (c :: cs) = some (BitVec.ofNat 32 n, rest) := by
  rw [readBits]
  · simp only [hread]
    exact if_pos hn
  · rintro cs' ⟨⟩
    exact hc rfl

theorem readBits_of_neg {cs rest : List Char} {n : Nat} (hread : readNat cs = some (n, rest))
    (hn : n ≤ 2 ^ 31) : readBits ('-' :: cs) = some (BitVec.ofInt 32 (-(n : Int)), rest) := by
  rw [readBits]
  simp only [hread]
  exact if_pos hn

/-- Ten decimal digits hold the magnitude of every 32-bit two's complement number. -/
theorem readBits_bitsText (bits : Word) : readBits (bitsText bits) = some (bits, []) := by
  have hlow : -2 ^ 31 ≤ sext32 bits := BitVec.le_toInt bits
  have hhigh : sext32 bits < 2 ^ 31 := BitVec.toInt_lt
  have hread := readNat_decDigits (n := (sext32 bits).natAbs) (by omega)
  rw [bitsText]
  split
  · have hvalue : -((sext32 bits).natAbs : Int) = bits.toInt := by rw [← sext32]; omega
    rw [readBits_of_neg hread (by omega), hvalue, BitVec.ofInt_toInt]
  · have hvalue : ((sext32 bits).natAbs : Int) = bits.toInt := by rw [← sext32]; omega
    obtain ⟨c, cs, hcons⟩ := List.exists_cons_of_ne_nil (decDigits_succ_ne_nil 9 (sext32 bits).natAbs)
    obtain ⟨d, hd, hdigit⟩ := mem_decDigits (hcons ▸ List.mem_cons_self : c ∈ decDigits 10 _)
    have hminus : c ≠ '-' := by
      rintro rfl
      revert d
      decide
    rw [hcons] at hread ⊢
    rw [readBits_of_nonneg hminus hread (by omega), ← BitVec.ofInt_natCast, hvalue, BitVec.ofInt_toInt]

theorem not_mem_bitsText {c : Char} (hc : NoDigit c) (hminus : c ≠ '-') (bits : Word) :
    c ∉ bitsText bits := by
  have hdigits : c ∉ decDigits 10 (sext32 bits).natAbs := fun hmem => by
    obtain ⟨d, hd, hdigit⟩ := mem_decDigits hmem
    exact hc d (by omega) hdigit
  rw [bitsText]
  split
  · simp [hminus, hdigits]
  · exact hdigits

/-- The end of every line: a comma, a space and `<bits>`. -/
theorem readTail_bitsText (bits : Word) : readTail (',' :: ' ' :: bitsText bits) = some bits := by
  have hspaces : skipSpaces (' ' :: bitsText bits) = bitsText bits :=
    skipSpaces_of_not_mem (not_mem_bitsText (by decide) (by decide) bits)
  rw [readTail, skipSpaces_of_ne (by decide)]
  simp only [hspaces, readBits_bitsText]
  rfl

/-- The operands of a scalar statement. -/
theorem readScalar_hexPattern (value bits : Word) :
    readScalar (' ' :: hexPattern value ++ ',' :: ' ' :: bitsText bits) = some (value, bits) := by
  have hspaces : skipSpaces (' ' :: hexPattern value ++ ',' :: ' ' :: bitsText bits)
      = hexPattern value ++ ',' :: ' ' :: bitsText bits := skipSpaces_hexPattern ..
  rw [readScalar, hspaces, readPattern_hexPattern]
  simp only [readTail_bitsText, Option.map_some]

/-! ## Sequences -/

/-- The elements after the first, each behind its comma and space. -/
def moreText (ws : List Word) : List Char := ws.flatMap fun w => ',' :: ' ' :: hexPattern w

theorem moreText_cons (w : Word) (ws : List Word) :
    moreText (w :: ws) = ',' :: ' ' :: (hexPattern w ++ moreText ws) := rfl

theorem commaSeparated_cons (w : Word) (ws : List Word) :
    commaSeparated hexPattern (w :: ws) = hexPattern w ++ moreText ws := by
  induction ws generalizing w with
  | nil => rw [commaSeparated, moreText, List.flatMap_nil, List.append_nil]
  | cons w' ws ih =>
    rw [commaSeparated, ih, moreText_cons]
    exact (List.cons_ne_nil w' ws ·)

theorem length_le_moreText (ws : List Word) : ws.length ≤ (moreText ws).length := by
  induction ws with
  | nil => exact Nat.zero_le _
  | cons w ws ih =>
    rw [moreText_cons]
    simp
    omega

theorem readMore_bracket (fuel : Nat) (rest : List Char) :
    readMore fuel (']' :: rest) = some ([], rest) := by
  have hspaces : skipSpaces (']' :: rest) = ']' :: rest := skipSpaces_of_ne (by decide) rest
  rw [readMore.eq_def]
  simp only [hspaces]

theorem readMore_comma (fuel : Nat) (w : Word) (cs : List Char) :
    readMore (fuel + 1) (',' :: ' ' :: (hexPattern w ++ cs))
      = (readMore fuel cs).map fun r => (w :: r.1, r.2) := by
  have hcomma : skipSpaces (',' :: ' ' :: (hexPattern w ++ cs)) = ',' :: ' ' :: (hexPattern w ++ cs) :=
    skipSpaces_of_ne (by decide) _
  have hspaces : skipSpaces (' ' :: (hexPattern w ++ cs)) = hexPattern w ++ cs :=
    skipSpaces_hexPattern w cs
  rw [readMore.eq_def]
  simp only [hcomma, hspaces, readPattern_hexPattern]

theorem readMore_moreText {ws : List Word} {fuel : Nat} (h : ws.length ≤ fuel) (rest : List Char) :
    readMore fuel (moreText ws ++ ']' :: rest) = some (ws, rest) := by
  induction ws generalizing fuel with
  | nil => exact readMore_bracket fuel rest
  | cons w ws ih =>
    obtain ⟨fuel, rfl⟩ := Nat.exists_eq_add_of_le' (Nat.one_le_of_lt h)
    rw [moreText_cons, List.cons_append, List.cons_append, List.append_assoc, readMore_comma,
      ih (Nat.le_of_succ_le_succ h), Option.map_some]

/-- The first element decides that the sequence is not the empty one. -/
theorem readSequence_hexPattern (w : Word) (cs : List Char) :
    readSequence ('[' :: (hexPattern w ++ cs))
      = (readMore cs.length cs).map fun r => (w :: r.1, r.2) := by
  rw [readSequence, skipSpaces_hexPattern]
  split
  · next hbracket => exact absurd (List.cons.inj hbracket).1 (by decide)
  · rw [readPattern_hexPattern]

theorem readSequence_sequenceText (ws : List Word) (rest : List Char) :
    readSequence (sequenceText hexPattern ws ++ rest) = some (ws, rest) := by
  cases ws with
  | nil => rfl
  | cons w ws =>
    have htext : sequenceText hexPattern (w :: ws) ++ rest
        = '[' :: (hexPattern w ++ (moreText ws ++ ']' :: rest)) := by
      simp [sequenceText, commaSeparated_cons]
    have hfuel : ws.length ≤ (moreText ws ++ ']' :: rest).length :=
      (length_le_moreText ws).trans (by simp)
    rw [htext, readSequence_hexPattern, readMore_moreText hfuel, Option.map_some]

/-- The operands of an array statement. -/
theorem readArray_sequenceText (data : List Word) (bits : Word) :
    readArray (' ' :: sequenceText hexPattern data ++ ',' :: ' ' :: bitsText bits)
      = some (data, bits) := by
  have hspaces : skipSpaces (' ' :: sequenceText hexPattern data ++ ',' :: ' ' :: bitsText bits)
      = sequenceText hexPattern data ++ ',' :: ' ' :: bitsText bits :=
    skipSpaces_of_ne (c := '[') (by decide) _
  rw [readArray, hspaces, readSequence_sequenceText]
  simp only [readTail_bitsText, Option.map_some]

theorem not_mem_moreText {c : Char} (hc : NoDigit c) (hother : c ≠ 'x' ∧ c ≠ ',' ∧ c ≠ ' ')
    (ws : List Word) : c ∉ moreText ws := by
  obtain ⟨hx, hcomma, hspace⟩ := hother
  induction ws with
  | nil => exact List.not_mem_nil
  | cons w ws ih => simp [moreText_cons, hcomma, hspace, not_mem_hexPattern hc hx, ih]

/-! ## Statements -/

theorem upTo_append {stop : Char} {cs : List Char} (h : stop ∉ cs) (rest : List Char) :
    upTo stop (cs ++ stop :: rest) = cs := by
  induction cs with
  | nil => simp [upTo]
  | cons c cs ih =>
    obtain ⟨hc, hcs⟩ := List.ne_and_not_mem_of_not_mem_cons h
    rw [List.cons_append, upTo, if_neg hc.symm, ih hcs]

theorem upTo_of_not_mem {stop : Char} {cs : List Char} (h : stop ∉ cs) : upTo stop cs = cs := by
  induction cs with
  | nil => rfl
  | cons c cs ih =>
    obtain ⟨hc, hcs⟩ := List.ne_and_not_mem_of_not_mem_cons h
    rw [upTo, if_neg hc.symm, ih hcs]

theorem dropTo_append {stop : Char} {cs : List Char} (h : stop ∉ cs) (rest : List Char) :
    dropTo stop (cs ++ stop :: rest) = stop :: rest := by
  induction cs with
  | nil => simp [dropTo]
  | cons c cs ih =>
    obtain ⟨hc, hcs⟩ := List.ne_and_not_mem_of_not_mem_cons h
    rw [List.cons_append, dropTo, if_neg hc.symm, ih hcs]

/-- A word that can stand before the first space of a line. -/
abbrev IsMnemonic (cs : List Char) : Prop := cs ≠ [] ∧ ' ' ∉ cs

theorem skipSpaces_line {mnemonic : List Char} (h : IsMnemonic mnemonic) (rest : List Char) :
    skipSpaces (mnemonic ++ rest) = mnemonic ++ rest := by
  obtain ⟨c, cs, rfl⟩ := List.exists_cons_of_ne_nil h.1
  exact skipSpaces_of_ne (List.ne_of_not_mem_cons h.2).symm _

/-- A scalar line is taken apart at its first space. -/
theorem scalarLine_parts {mnemonic : String} (h : IsMnemonic mnemonic.toList) (value bits : Word) :
    skipSpaces (scalarLine mnemonic value bits) = scalarLine mnemonic value bits ∧
    upTo ' ' (scalarLine mnemonic value bits) = mnemonic.toList ∧
    readScalar (dropTo ' ' (scalarLine mnemonic value bits)) = some (value, bits) := by
  rw [scalarLine, List.append_assoc, skipSpaces_line h, List.cons_append, upTo_append h.2,
    dropTo_append h.2]
  exact ⟨rfl, rfl, readScalar_hexPattern value bits⟩

/-- An array line is taken apart at its first space. -/
theorem arrayLine_parts {mnemonic : String} (h : IsMnemonic mnemonic.toList) (data : List Word)
    (bits : Word) :
    skipSpaces (arrayLine mnemonic data bits) = arrayLine mnemonic data bits ∧
    upTo ' ' (arrayLine mnemonic data bits) = mnemonic.toList ∧
    readArray (dropTo ' ' (arrayLine mnemonic data bits)) = some (data, bits) := by
  rw [arrayLine, List.append_assoc, skipSpaces_line h, List.cons_append, upTo_append h.2,
    dropTo_append h.2]
  exact ⟨rfl, rfl, readArray_sequenceText data bits⟩

/-- The six mnemonics differ, so each statement is read by its own row (R45, R46). -/
theorem readStmt_text (st : Stmt) : readStmt st.text = some st := by
  cases st with
  | op i =>
    cases i with
    | truncZ value bits =>
      obtain ⟨hskip, hmnemonic, hread⟩ :=
        scalarLine_parts (mnemonic := "TRUNC.Z") (by decide) value bits
      simp [Stmt.text, readStmt, hskip, hmnemonic, hread]
    | truncR value bits =>
      obtain ⟨hskip, hmnemonic, hread⟩ :=
        scalarLine_parts (mnemonic := "TRUNC.R") (by decide) value bits
      simp [Stmt.text, readStmt, hskip, hmnemonic, hread]
    | truncaZ data bits =>
      obtain ⟨hskip, hmnemonic, hread⟩ :=
        arrayLine_parts (mnemonic := "TRUNCA.Z") (by decide) data bits
      simp [Stmt.text, readStmt, hskip, hmnemonic, hread]
    | truncaR data bits =>
      obtain ⟨hskip, hmnemonic, hread⟩ :=
        arrayLine_parts (mnemonic := "TRUNCA.R") (by decide) data bits
      simp [Stmt.text, readStmt, hskip, hmnemonic, hread]
  | trunc value bits =>
    obtain ⟨hskip, hmnemonic, hread⟩ := scalarLine_parts (mnemonic := "TRUNC") (by decide) value bits
    simp [Stmt.text, readStmt, hskip, hmnemonic, hread]
  | trunca data bits =>
    obtain ⟨hskip, hmnemonic, hread⟩ := arrayLine_parts (mnemonic := "TRUNCA") (by decide) data bits
    simp [Stmt.text, readStmt, hskip, hmnemonic, hread]

/-! ## Lines and their comments -/

theorem semicolon_not_mem_scalarLine {mnemonic : String} (h : ';' ∉ mnemonic.toList)
    (value bits : Word) : ';' ∉ scalarLine mnemonic value bits := by
  have hvalue := not_mem_hexPattern (c := ';') (by decide) (by decide) value
  have hbits := not_mem_bitsText (c := ';') (by decide) (by decide) bits
  simp [scalarLine, h, hvalue, hbits]

theorem semicolon_not_mem_arrayLine {mnemonic : String} (h : ';' ∉ mnemonic.toList)
    (data : List Word) (bits : Word) : ';' ∉ arrayLine mnemonic data bits := by
  have hdata : ';' ∉ sequenceText hexPattern data := by
    cases data with
    | nil => decide
    | cons w ws =>
      have hfirst := not_mem_hexPattern (c := ';') (by decide) (by decide) w
      have hmore := not_mem_moreText (c := ';') (by decide) (by decide) ws
      simp [sequenceText, commaSeparated_cons, hfirst, hmore]
  have hbits := not_mem_bitsText (c := ';') (by decide) (by decide) bits
  simp [arrayLine, h, hdata, hbits]

/-- No statement's text holds the character that begins a comment. -/
theorem semicolon_not_mem_text (st : Stmt) : ';' ∉ st.text := by
  cases st with
  | op i =>
    cases i with
    | truncZ value bits => exact semicolon_not_mem_scalarLine (by decide) value bits
    | truncR value bits => exact semicolon_not_mem_scalarLine (by decide) value bits
    | truncaZ data bits => exact semicolon_not_mem_arrayLine (by decide) data bits
    | truncaR data bits => exact semicolon_not_mem_arrayLine (by decide) data bits
  | trunc value bits => exact semicolon_not_mem_scalarLine (by decide) value bits
  | trunca data bits => exact semicolon_not_mem_arrayLine (by decide) data bits

theorem assembleLine_text (st : Stmt) : assembleLine st.text = some (encode st.expand) := by
  rw [assembleLine, upTo_of_not_mem (semicolon_not_mem_text st), readStmt_text, Option.map_some]

/-- Settles O8: the statement reads back, and its text ends where the comment begins. -/
theorem assemblyTextRoundTrip : Obligations.AssemblyTextRoundTrip := by
  refine fun st comment => ⟨readStmt_text st, ?_⟩
  rw [assembleLine, upTo_append (semicolon_not_mem_text st), readStmt_text, Option.map_some]

/-- Settles O9: a pseudo-instruction and what it expands to assemble to one request. -/
theorem pseudoInstructionsCarryRound : Obligations.PseudoInstructionsCarryRound := by
  refine ⟨fun value bits => ?_, fun data bits => ?_, fun st => ?_⟩
  · rw [assembleLine_text, assembleLine_text]
    exact ⟨rfl, rfl⟩
  · rw [assembleLine_text, assembleLine_text]
    exact ⟨rfl, rfl⟩
  · cases st with
    | op i => exact .inl ⟨i, rfl, rfl⟩
    | trunc value bits => exact .inr (.inl ⟨value, bits, rfl⟩)
    | trunca data bits => exact .inr (.inr ⟨data, bits, rfl⟩)

/-- Settles O10: the two lines of the rule, read and written. -/
theorem writtenEncodingExamples : Obligations.WrittenEncodingExamples := ⟨by decide, by decide⟩

end Sys2Proof.Machine
end
